-- ==== Sys2Proof/Word.lean ====
section
/-! DEFINITION. The machine's word types (00_scope.md rules R5, R7, R8).
Bit 0 of every value is its least significant bit. -/

namespace Sys2Proof

/-- A byte of FBUF or ABUF. -/
abbrev Byte := BitVec 8

/-- A 16-bit value: the CRC state, an immediate, an index. -/
abbrev Half := BitVec 16

/-- A 32-bit command word or host bus word. -/
abbrev Word := BitVec 32

/-- The content of a field register: UInt64. -/
abbrev Long := BitVec 64

/-- A frame-buffer position: the 10-bit registers CUR and FLEN. -/
abbrev Pos := BitVec 10

/-- A host register space byte address: 12 bits. -/
abbrev HostAddr := BitVec 12

end Sys2Proof
end

