-- ==== Sys2Proof/Syntax.lean ====
section
/-! DEFINITION. The commands of the block, one constructor per row of spec/opcode_table.json (30_encoding.md rule R95).
The operands are those of the assembler's syntax (rule R100). -/

namespace Sys2Proof

/-- The name of a field register, F0 to F7 (10_state.md rule R20). -/
abbrev RegName := Fin 8

/-- The twenty commands. `rd`, `rs1` and `rs2` name field registers. -/
inductive Instr where
  /-- SEEK imm (41_cursor.md rule R120). -/
  | seek (imm : Half)
  /-- SKIP imm (rule R122). -/
  | skip (imm : Half)
  /-- SKIPR Fs, imm (rule R124). -/
  | skipr (rs1 : RegName) (imm : Half)
  /-- TAIL imm (rule R126). -/
  | tail (imm : Half)
  /-- AVAIL Fd (rule R128). -/
  | avail (rd : RegName)
  /-- RDU8 Fd (rule R130). -/
  | rdu8 (rd : RegName)
  /-- RDU16 Fd (rule R132). -/
  | rdu16 (rd : RegName)
  /-- RDU32 Fd (rule R134). -/
  | rdu32 (rd : RegName)
  /-- MOVI Fd, imm (42_extract.md rule R150). -/
  | movi (rd : RegName) (imm : Half)
  /-- XBF Fd, Fs, pos, width (rule R152); `width` is W + 1, from 1 to 64. -/
  | xbf (rd rs1 : RegName) (pos : BitVec 6) (width : Nat)
  /-- XSGN Fd, Fm, Ff, pos (rule R155). -/
  | xsgn (rd rs1 rs2 : RegName) (pos : BitVec 6)
  /-- XCELL Fd, Fh, Fl (rule R159). -/
  | xcell (rd rs1 rs2 : RegName)
  /-- XTIME Fd (rule R163). -/
  | xtime (rd : RegName)
  /-- XIMEI Fd (rule R167). -/
  | ximei (rd : RegName)
  /-- CRCINIT (43_crc.md rule R184). -/
  | crcinit
  /-- CRCI imm8 (rule R185). -/
  | crci (imm8 : Byte)
  /-- CRCR Fs (rule R186). -/
  | crcr (rs1 : RegName)
  /-- CRCM Fa, count (rule R187). -/
  | crcm (rs1 : RegName) (count : Half)
  /-- CRCRD Fd (rule R188). -/
  | crcrd (rd : RegName)
  /-- ACK Ft, Fi (rule R190). -/
  | ack (rs1 rs2 : RegName)
  deriving DecidableEq, Repr

end Sys2Proof
end

