-- ==== Sys2Proof/WellFormed.lean ====
section
/-! DEFINITION. Which command terms an assembler accepts (30_encoding.md rule R100).
The types of `Instr` already bound registers (0 to 7), `imm` (16 bits), `imm8` (8 bits) and `pos` (0 to 63);
the width of XBF is the one operand left to check. -/

namespace Sys2Proof

/-- Rule R100: the assembler rejects a width outside 1 to 64. Every other term is encodable as it stands. -/
def Instr.wf : Instr → Bool
  | .xbf _ _ _ width => decide (1 ≤ width) && decide (width ≤ 64)
  | .seek _ => true
  | .skip _ => true
  | .skipr _ _ => true
  | .tail _ => true
  | .avail _ => true
  | .rdu8 _ => true
  | .rdu16 _ => true
  | .rdu32 _ => true
  | .movi _ _ => true
  | .xsgn _ _ _ _ => true
  | .xcell _ _ _ => true
  | .xtime _ => true
  | .ximei _ => true
  | .crcinit => true
  | .crci _ => true
  | .crcr _ => true
  | .crcm _ _ => true
  | .crcrd _ => true
  | .ack _ _ => true

/-- The command is one that a word can encode. -/
abbrev Instr.WellFormed (i : Instr) : Prop := i.wf = true

end Sys2Proof
end

