-- ==== Sys2Proof/Decode.lean ====
section
/-! DEFINITION. Decoding and encoding of command words (30_encoding.md rules R90 to R99).
`decode` is total: every 32-bit word gives a command or a named rejection (rules R97, R98). -/

namespace Sys2Proof

/-- The rows of the opcode map (rule R95). -/
inductive Opcode where
  | seek | skip | skipr | tail | avail | rdu8 | rdu16 | rdu32
  | movi | xbf | xsgn | xcell | xtime | ximei
  | crcinit | crci | crcr | crcm | crcrd | ack
  deriving DecidableEq, Repr

/-- Every row, in the order of rule R95. -/
def Opcode.all : List Opcode :=
  [.seek, .skip, .skipr, .tail, .avail, .rdu8, .rdu16, .rdu32]
    ++ [.movi, .xbf, .xsgn, .xcell, .xtime, .ximei]
    ++ [.crcinit, .crci, .crcr, .crcm, .crcrd, .ack]

/-- The OP value of a row (rule R95). -/
def Opcode.code : Opcode → BitVec 8
  | .seek => 0x10
  | .skip => 0x11
  | .skipr => 0x12
  | .tail => 0x13
  | .avail => 0x14
  | .rdu8 => 0x18
  | .rdu16 => 0x19
  | .rdu32 => 0x1A
  | .movi => 0x20
  | .xbf => 0x21
  | .xsgn => 0x22
  | .xcell => 0x23
  | .xtime => 0x24
  | .ximei => 0x25
  | .crcinit => 0x30
  | .crci => 0x31
  | .crcr => 0x32
  | .crcm => 0x33
  | .crcrd => 0x34
  | .ack => 0x38

/-- The row an OP value names, if it is assigned (rules R95, R97). -/
def Opcode.ofCode (c : BitVec 8) : Option Opcode :=
  match c.toNat with
  | 0x10 => some .seek
  | 0x11 => some .skip
  | 0x12 => some .skipr
  | 0x13 => some .tail
  | 0x14 => some .avail
  | 0x18 => some .rdu8
  | 0x19 => some .rdu16
  | 0x1A => some .rdu32
  | 0x20 => some .movi
  | 0x21 => some .xbf
  | 0x22 => some .xsgn
  | 0x23 => some .xcell
  | 0x24 => some .xtime
  | 0x25 => some .ximei
  | 0x30 => some .crcinit
  | 0x31 => some .crci
  | 0x32 => some .crcr
  | 0x33 => some .crcm
  | 0x34 => some .crcrd
  | 0x38 => some .ack
  | _ => none

/-- The `match` column of rule R96. -/
def Opcode.pattern : Opcode → Word
  | .seek => 0x10000000
  | .skip => 0x11000000
  | .skipr => 0x12000000
  | .tail => 0x13000000
  | .avail => 0x14000000
  | .rdu8 => 0x18000000
  | .rdu16 => 0x19000000
  | .rdu32 => 0x1A000000
  | .movi => 0x20000000
  | .xbf => 0x21000000
  | .xsgn => 0x22000000
  | .xcell => 0x23000000
  | .xtime => 0x24000000
  | .ximei => 0x25000000
  | .crcinit => 0x30000000
  | .crci => 0x31000000
  | .crcr => 0x32000000
  | .crcm => 0x33000000
  | .crcrd => 0x34000000
  | .ack => 0x38000000

/-- The `mask` column of rule R96: the OP bits and the must-be-0 bits of the row. -/
def Opcode.mask : Opcode → Word
  | .seek => 0xFFFF0000
  | .skip => 0xFFFF0000
  | .skipr => 0xFFE30000
  | .tail => 0xFFFF0000
  | .avail => 0xFF1FFFFF
  | .rdu8 => 0xFF1FFFFF
  | .rdu16 => 0xFF1FFFFF
  | .rdu32 => 0xFF1FFFFF
  | .movi => 0xFF1F0000
  | .xbf => 0xFF03F000
  | .xsgn => 0xFF007FC0
  | .xcell => 0xFF007FFF
  | .xtime => 0xFF1FFFFF
  | .ximei => 0xFF1FFFFF
  | .crcinit => 0xFFFFFFFF
  | .crci => 0xFFFFFF00
  | .crcr => 0xFFE3FFFF
  | .crcm => 0xFFE30000
  | .crcrd => 0xFF1FFFFF
  | .ack => 0xFFE07FFF

/-- A word encodes the command of a row exactly when `w & mask = match` (rule R96). -/
def Opcode.selects (op : Opcode) (w : Word) : Bool := w &&& op.mask == op.pattern

/-- OP, word bits [31:24] (rule R91). -/
def opField (w : Word) : BitVec 8 := w.extractLsb' 24 8

/-- RD, word bits [23:21] (rule R91). -/
def rdField (w : Word) : RegName := (w.extractLsb' 21 3).toFin

/-- RS1, word bits [20:18] (rule R91). -/
def rs1Field (w : Word) : RegName := (w.extractLsb' 18 3).toFin

/-- RS2, word bits [17:15] (rule R92). -/
def rs2Field (w : Word) : RegName := (w.extractLsb' 15 3).toFin

/-- IMM16, word bits [15:0] (rule R94). -/
def imm16Field (w : Word) : Half := w.extractLsb' 0 16

/-- The byte operand of CRCI, word bits [7:0] (rule R94). -/
def imm8Field (w : Word) : Byte := w.extractLsb' 0 8

/-- P, word bits [5:0] (rule R94). -/
def posField (w : Word) : BitVec 6 := w.extractLsb' 0 6

/-- The field width W + 1, W in word bits [11:6] (rule R94). -/
def widthField (w : Word) : Nat := (w.extractLsb' 6 6).toNat + 1

/-- The command of a row with the operand fields of the word (rules R92 to R95). -/
def Opcode.build (op : Opcode) (w : Word) : Instr :=
  match op with
  | .seek => .seek (imm16Field w)
  | .skip => .skip (imm16Field w)
  | .skipr => .skipr (rs1Field w) (imm16Field w)
  | .tail => .tail (imm16Field w)
  | .avail => .avail (rdField w)
  | .rdu8 => .rdu8 (rdField w)
  | .rdu16 => .rdu16 (rdField w)
  | .rdu32 => .rdu32 (rdField w)
  | .movi => .movi (rdField w) (imm16Field w)
  | .xbf => .xbf (rdField w) (rs1Field w) (posField w) (widthField w)
  | .xsgn => .xsgn (rdField w) (rs1Field w) (rs2Field w) (posField w)
  | .xcell => .xcell (rdField w) (rs1Field w) (rs2Field w)
  | .xtime => .xtime (rdField w)
  | .ximei => .ximei (rdField w)
  | .crcinit => .crcinit
  | .crci => .crci (imm8Field w)
  | .crcr => .crcr (rs1Field w)
  | .crcm => .crcm (rs1Field w) (imm16Field w)
  | .crcrd => .crcrd (rdField w)
  | .ack => .ack (rs1Field w) (rs2Field w)

/-- Why a word is no command (rule R97). Both reasons are the one fault cause ILLEGAL. -/
inductive DecodeError where
  /-- The OP value is none of rule R95. -/
  | unassignedOpcode (code : BitVec 8)
  /-- A bit that the row requires to be 0 is 1. -/
  | mustBeZeroBitSet (op : Opcode)
  deriving DecidableEq, Repr

/-- The decoder of rule R98: the row that matches, or a rejection. -/
def decode (w : Word) : Except DecodeError Instr :=
  match Opcode.ofCode (opField w) with
  | none => .error (.unassignedOpcode (opField w))
  | some op => if op.selects w then .ok (op.build w) else .error (.mustBeZeroBitSet op)

/-! ## Encoding, from the four formats of rule R92 -/

/-- The row of a command. -/
def Instr.opcode : Instr → Opcode
  | .seek _ => .seek
  | .skip _ => .skip
  | .skipr _ _ => .skipr
  | .tail _ => .tail
  | .avail _ => .avail
  | .rdu8 _ => .rdu8
  | .rdu16 _ => .rdu16
  | .rdu32 _ => .rdu32
  | .movi _ _ => .movi
  | .xbf _ _ _ _ => .xbf
  | .xsgn _ _ _ _ => .xsgn
  | .xcell _ _ _ => .xcell
  | .xtime _ => .xtime
  | .ximei _ => .ximei
  | .crcinit => .crcinit
  | .crci _ => .crci
  | .crcr _ => .crcr
  | .crcm _ _ => .crcm
  | .crcrd _ => .crcrd
  | .ack _ _ => .ack

/-- Format N: OP in [31:24], zeros elsewhere. -/
def formatN (op : Opcode) : Word := BitVec.ofNat 32 (op.code.toNat * 2 ^ 24)

/-- Format R: OP in [31:24], RD in [23:21], RS1 in [20:18], RS2 in [17:15], zeros elsewhere. -/
def formatR (op : Opcode) (rd rs1 rs2 : RegName) : Word :=
  BitVec.ofNat 32 (op.code.toNat * 2 ^ 24 + rd.val * 2 ^ 21 + rs1.val * 2 ^ 18 + rs2.val * 2 ^ 15)

/-- Format I: OP in [31:24], RD in [23:21], RS1 in [20:18], IMM16 in [15:0], zeros elsewhere. -/
def formatI (op : Opcode) (rd rs1 : RegName) (imm : Half) : Word :=
  BitVec.ofNat 32 (op.code.toNat * 2 ^ 24 + rd.val * 2 ^ 21 + rs1.val * 2 ^ 18 + imm.toNat)

/-- Format X: OP in [31:24], RD in [23:21], RS1 in [20:18], RS2 in [17:15], W in [11:6], P in [5:0], zeros elsewhere. -/
def formatX (op : Opcode) (rd rs1 rs2 : RegName) (w p : BitVec 6) : Word :=
  BitVec.ofNat 32
    (op.code.toNat * 2 ^ 24 + rd.val * 2 ^ 21 + rs1.val * 2 ^ 18 + rs2.val * 2 ^ 15 + w.toNat * 2 ^ 6 + p.toNat)

/-- The word of a command (rules R92, R94, R95): an unused register field is 0, and a width is stored less 1. -/
def encode : Instr → Word
  | .seek imm => formatI .seek 0 0 imm
  | .skip imm => formatI .skip 0 0 imm
  | .skipr rs1 imm => formatI .skipr 0 rs1 imm
  | .tail imm => formatI .tail 0 0 imm
  | .avail rd => formatR .avail rd 0 0
  | .rdu8 rd => formatR .rdu8 rd 0 0
  | .rdu16 rd => formatR .rdu16 rd 0 0
  | .rdu32 rd => formatR .rdu32 rd 0 0
  | .movi rd imm => formatI .movi rd 0 imm
  | .xbf rd rs1 pos width => formatX .xbf rd rs1 0 (BitVec.ofNat 6 (width - 1)) pos
  | .xsgn rd rs1 rs2 pos => formatX .xsgn rd rs1 rs2 0 pos
  | .xcell rd rs1 rs2 => formatR .xcell rd rs1 rs2
  | .xtime rd => formatR .xtime rd 0 0
  | .ximei rd => formatR .ximei rd 0 0
  | .crcinit => formatN .crcinit
  | .crci imm8 => formatI .crci 0 0 (imm8.setWidth 16)
  | .crcr rs1 => formatR .crcr 0 rs1 0
  | .crcm rs1 count => formatI .crcm 0 rs1 count
  | .crcrd rd => formatR .crcrd rd 0 0
  | .ack rs1 rs2 => formatR .ack 0 rs1 rs2

/-- What `decode` reads from an instruction whose bits are `w`, bit 0 the least significant bit of the one command
word. A command is exactly one 32-bit word (rule R90), so a longer instruction is none. -/
def decodeTableWord (nbits w : Nat) : Option Instr :=
  if nbits ≤ 32 then
    match decode (BitVec.ofNat 32 (w % 2 ^ nbits)) with
    | .ok i => some i
    | .error _ => none
  else none

end Sys2Proof
end

