-- ==== Sys2Proof/Config.lean ====
section
/-! DEFINITION. What an instance of the block fixes (00_scope.md rules R5, R6) and the values the spec leaves open. -/

namespace Sys2Proof

/-- CRC_CFG of 00_scope.md rule R6: the four parameters of the CRC that the source leaves open. -/
structure CrcCfg where
  /-- The value CRCINIT and reset load. -/
  init : Half
  /-- Whether each input byte is reflected before it is fed. -/
  refin : Bool
  /-- Whether the state is reflected before the final exclusive-or. -/
  refout : Bool
  /-- The final exclusive-or. -/
  xorout : Half
  deriving DecidableEq, Repr

/-- The default instance of the spec, CRC-16/X-25 (00_scope.md rule R6). -/
def CrcCfg.x25 : CrcCfg := { init := 0xFFFF, refin := true, refout := true, xorout := 0xFFFF }

namespace Config

/-- CRC_POLY, x^16 + x^12 + x^5 + 1 (00_scope.md rule R5). -/
def crcPoly : Half := 0x1021

/-- FBUF_BYTES (00_scope.md rule R5). -/
def fbufBytes : Nat := 512

/-- The constant of the ID register (10_state.md rule R34). -/
def idValue : Word := 0xC16C0100

/-- CELLID_COMPAT of 00_scope.md rule R6, OPEN: a function of the two cell-id parts, nothing more is known of it.
A free value (log entry 5): it has no body. -/
opaque cellidCompat : Half → Byte → Long

/-- The byte that FBUF holds at an address after the reset of the given number, until the host writes it
(70_reset_and_hazards.md rule R241: unspecified). A free value (log entry 3): it has no body. -/
opaque fbufAtReset : Nat → Nat → Byte

end Config

end Sys2Proof
end

