-- ==== Sys2Proof/Machine/State.lean ====
section
/-! DEFINITION. The state of the block: the tuple of 10_state.md rule R41, the instance's CRC parameters, and the
host's events still to come. Plain data. -/

namespace Sys2Proof.Machine

/-- CTRL (10_state.md rule R27). Bits [31:2] are reserved, read 0 and ignore writes, so they hold nothing. -/
structure Ctrl where
  /-- Bit 0, CELLID_MODE: false is compat mode, true is corrected mode (rule R28). -/
  cellidMode : Bool
  /-- Bit 1, FAULT_IE (rule R29). -/
  faultIe : Bool
  deriving DecidableEq, Repr

/-- The stored fields of STATUS (10_state.md rules R30, R41). IRQ is a function of the state. -/
structure Status where
  /-- Bit 0, FAULT. -/
  fault : Bool
  /-- Bits [7:4], CAUSE. -/
  cause : BitVec 4
  /-- Bit 8, NONDEC. -/
  nondec : Bool
  /-- Bit 9, ACKV. -/
  ackv : Bool
  deriving DecidableEq, Repr

/-- What reaches the block from outside, one event at a time in bus order (20_memory.md rule R75,
70_reset_and_hazards.md rule R240). -/
inductive BusEvent where
  /-- A host write of one 32-bit word. -/
  | write (addr : HostAddr) (data : Word)
  /-- A host read of one 32-bit word. -/
  | read (addr : HostAddr)
  /-- The platform asserts the reset input. -/
  | resetAssert
  /-- The platform releases the reset input. -/
  | resetRelease
  deriving DecidableEq, Repr

/-- The bytes the host has written into FBUF since the last reset: address and byte, addresses strictly rising.
An address that is not listed has no byte here; what the block then reads is `State.fbufByte`'s matter. -/
abbrev Memory := List Host.Cell

/-- The state of one instance of the block. -/
structure State where
  /-- The field registers F0 to F7 (10_state.md rule R20). -/
  f : Vector Long 8
  /-- The cursor CUR (rule R23). -/
  cur : Pos
  /-- The frame length FLEN (rule R24). -/
  flen : Pos
  /-- The CRC accumulator (rule R26). -/
  crc : Half
  /-- CTRL (rule R27). -/
  ctrl : Ctrl
  /-- STATUS (rule R30). -/
  status : Status
  /-- FAULT_CMD (rule R35). -/
  faultCmd : Word
  /-- FAULT_INFO (rule R36). -/
  faultInfo : Word
  /-- FBUF (rule R38), as far as the host has written it. -/
  fbuf : Memory
  /-- ABUF (rule R39). -/
  abuf : Vector Byte 10
  /-- The instance's CRC_CFG (00_scope.md rule R6): fixed, no step changes it (log entry 4). -/
  crcCfg : CrcCfg
  /-- The model's own: the number of the reset the block last came out of (log entry 3). -/
  epoch : Nat
  /-- The model's own: whether the reset input is asserted (log entry 6). -/
  inReset : Bool
  /-- The model's own: the events still to come, the next one first (log entry 1). -/
  busQueue : List BusEvent
  /-- The model's own: the words that host reads have returned, the newest first (log entry 8). -/
  busReads : List Word
  deriving DecidableEq, Repr

/-- Why a step can stop. No command stops: the spec's own faults are records in State (60_exceptions.md rule R210). -/
inductive Fault where
  /-- Raised by `busEvent` for a host read or write while the reset input is asserted: the block accepts no host access
  (70_reset_and_hazards.md rule R240; 93_implementation_defined.md I20, 'stuck'). Safe: the model stops. -/
  | accessInReset
  deriving DecidableEq, Repr

/-- Why an instruction has no meaning. No arm of `exec` answers it: every command is modelled. -/
inductive Refusal where
  /-- Raised by an arm of `exec` for a command without a meaning; there is none. Safe: the model stops. -/
  | notModelled (mnemonic : String)
  deriving DecidableEq, Repr

/-- The values of 10_state.md rule R43 for an instance with the given CRC parameters. FBUF lists nothing: its bytes are
unspecified (70_reset_and_hazards.md rule R241) and drawn by the reset's number. -/
def State.afterReset (cfg : CrcCfg) (epoch : Nat) : State where
  f := Vector.replicate 8 0
  cur := 0
  flen := 0
  crc := cfg.init
  ctrl := { cellidMode := false, faultIe := false }
  status := { fault := false, cause := 0, nondec := false, ackv := false }
  faultCmd := 0
  faultInfo := 0
  fbuf := []
  abuf := Vector.replicate 10 0
  crcCfg := cfg
  epoch := epoch
  inReset := false
  busQueue := []
  busReads := []

/-- The default instance right after reset is released. -/
def State.reset : State := State.afterReset CrcCfg.x25 0

end Sys2Proof.Machine
end

