-- ==== Sys2Proof/Machine/Ops.lean ====
section
/-! DEFINITION. The named operations over registers, buffers and the fault record (00_scope.md rule R9). Every read and
write of the state goes through these. -/

namespace Sys2Proof.Machine

/-- How every meaning answers. -/
abbrev Result := Host.Outcome State Fault Refusal

/-! ## Field registers, cursor, CRC -/

/-- F[r] (00_scope.md rule R9). None of the eight is hardwired (10_state.md rule R20). -/
def State.readReg (s : State) (r : RegName) : Long := s.f[r.val]

/-- F[r] <- v (00_scope.md rule R9). -/
def State.writeReg (s : State) (r : RegName) (v : Long) : State := { s with f := s.f.set r.val v }

/-- CUR <- n. Every caller gives an n at most FLEN, so nothing is cut off (10_state.md rule R23). -/
def State.setCur (s : State) (n : Nat) : State := { s with cur := BitVec.ofNat 10 n }

/-- CRC <- c (10_state.md rule R26). -/
def State.setCrc (s : State) (c : Half) : State := { s with crc := c }

/-- The number of frame bytes after the cursor, FLEN - CUR (00_scope.md rule R11). In a state with CUR above FLEN, which
no run reaches (10_state.md rule R42), it is 0 (log entry 10). -/
def State.remaining (s : State) : Nat := s.flen.toNat - s.cur.toNat

/-! ## The frame buffer -/

/-- The byte the list holds for an address, if the host has written it since the last reset. -/
def Memory.read? : Memory → Nat → Option Byte
  | [], _ => none
  | c :: m, a => if c.1 = a then some c.2 else Memory.read? m a

/-- Store a byte, keeping addresses strictly rising. -/
def Memory.write : Memory → Nat → Byte → Memory
  | [], a, v => [(a, v)]
  | c :: m, a, v =>
    if a < c.1 then (a, v) :: c :: m
    else if a = c.1 then (a, v) :: m
    else c :: Memory.write m a v

/-- Addresses strictly rise from `lo` on and stay inside FBUF (20_memory.md rule R60). -/
def Memory.canonicalFrom : Nat → Memory → Bool
  | _, [] => true
  | lo, c :: m => decide (lo ≤ c.1) && decide (c.1 < Config.fbufBytes) && Memory.canonicalFrom (c.1 + 1) m

/-- The canonical form of FBUF's list. An unlisted address has no value in the list (`Memory.read?` answers none), so no
entry can equal what an unlisted address reads as. -/
def Memory.wf (m : Memory) : Bool := Memory.canonicalFrom 0 m

/-- FBUF[a] (00_scope.md rule R9): the byte the host wrote, or, where it has written none since the last reset, the
unspecified byte of 70_reset_and_hazards.md rule R241, a free value (log entry 3). -/
def State.fbufByte (s : State) (a : Nat) : Byte :=
  (s.fbuf.read? a).getD (Config.fbufAtReset s.epoch a)

/-- FBUF[a], FBUF[a+1], ..., n bytes in increasing address order. -/
def State.fbufBytes (s : State) : Nat → Nat → List Byte
  | _, 0 => []
  | a, n + 1 => s.fbufByte a :: s.fbufBytes (a + 1) n

/-- The big-endian unsigned value of a byte sequence: the first byte is the most significant (20_memory.md rule R61). -/
def bigEndian (bytes : List Byte) : Nat := bytes.foldl (fun v b => v * 256 + b.toNat) 0

/-- MemRead(a, n) of 00_scope.md rule R9. -/
def State.memRead (s : State) (a n : Nat) : Nat := bigEndian (s.fbufBytes a n)

/-- FBUF[a] <- v, by the host only (20_memory.md rule R66). -/
def State.writeFbufByte (s : State) (a : Nat) (v : Byte) : State := { s with fbuf := s.fbuf.write a v }

/-! ## The acknowledgment buffer -/

/-- ABUF[k]; the bytes past the tenth read 0 (20_memory.md rule R67). -/
def State.abufByte (s : State) (k : Nat) : Byte := if h : k < 10 then s.abuf[k] else 0

/-- ABUF[0..9] <- bytes, all ten at once (10_state.md rule R39). -/
def State.setAbuf (s : State) (bytes : Vector Byte 10) : State := { s with abuf := bytes }

/-! ## Raising a fault and returning from it -/

/-- The fault causes (60_exceptions.md rule R211). -/
inductive Cause where
  /-- A command would read or move past FLEN. -/
  | bounds
  /-- A computed skip count below 0. -/
  | negskip
  /-- A word that is no command. -/
  | illegal
  /-- A host write to FLEN above 512. -/
  | hostrange
  deriving DecidableEq, Repr

/-- The 4-bit code of a cause (60_exceptions.md rule R211). -/
def Cause.code : Cause → BitVec 4
  | .bounds => 1
  | .negskip => 2
  | .illegal => 3
  | .hostrange => 4

/-- The fault record of 60_exceptions.md rule R214: FAULT, CAUSE, FAULT_CMD and FAULT_INFO are written when no fault is
pending; otherwise the first fault is kept and nothing changes. -/
def State.recordFault (s : State) (cause : Cause) (cmd info : Word) : State :=
  if s.status.fault then s
  else
    { s with
      status := { s.status with fault := true, cause := cause.code }
      faultCmd := cmd
      faultInfo := info }

/-- The return from a fault (60_exceptions.md rule R219): FAULT and CAUSE become 0; FAULT_CMD and FAULT_INFO keep the
record. -/
def State.clearFault (s : State) : State := { s with status := { s.status with fault := false, cause := 0 } }

/-- `raise Fault(cause, info)` in a command (00_scope.md rule R9): the command ends with the record as its only effect.
The command word is the one word that encodes the command (log entry 7). -/
def raiseFault (cause : Cause) (i : Instr) (info : Word) (s : State) : Result :=
  .next (s.recordFault cause (encode i) info)

/-- The range check every command that moves or reads makes (20_memory.md rule R72): past FLEN it raises BOUNDS with the
end address needed, mod 2^32; otherwise the command's writes are done. -/
def withinFrame (i : Instr) (endAddr : Nat) (s done : State) : Result :=
  if s.flen.toNat < endAddr then raiseFault .bounds i (BitVec.ofNat 32 endAddr) s else .next done

/-- Move the cursor n bytes on, unless that passes FLEN (41_cursor.md rules R122, R124). -/
def advance (i : Instr) (n : Nat) (s : State) : Result :=
  withinFrame i (s.cur.toNat + n) s (s.setCur (s.cur.toNat + n))

/-- A sequential read of n bytes at the cursor whose value goes to a field register (41_cursor.md rules R130, R132,
R134; 42_extract.md rules R163, R167). -/
def readAtCursor (i : Instr) (rd : RegName) (n : Nat) (value : Long) (s : State) : Result :=
  withinFrame i (s.cur.toNat + n) s ((s.writeReg rd value).setCur (s.cur.toNat + n))

/-! ## The reset input -/

/-- The reset input is asserted (70_reset_and_hazards.md rule R240). -/
def State.assertReset (s : State) : State := { s with inReset := true }

/-- The reset input is released: every piece of state holds its value of 10_state.md rule R43, FBUF a new draw
(70_reset_and_hazards.md rules R240, R241). The instance's parameters and the host's side go on. A release of an input
that is not asserted changes nothing. -/
def State.releaseReset (s : State) : State :=
  if s.inReset then
    { State.afterReset s.crcCfg (s.epoch + 1) with busQueue := s.busQueue, busReads := s.busReads }
  else s

end Sys2Proof.Machine
end

