-- ==== Sys2Proof/Machine/Operands.lean ====
section
/-! DEFINITION. The operand forms of the commands: immediates and the parts of field registers they use
(30_encoding.md rules R93, R94; 92_eei_decisions.md D34). -/

namespace Sys2Proof.Machine

/-- zext_64(imm), an IMM16 operand (30_encoding.md rule R94). -/
def immLong (imm : Half) : Long := imm.setWidth 64

/-- v[7:0]: the byte of CRCR, XCELL's low part, ACK's type. -/
def lowByte (v : Long) : Byte := v.extractLsb' 0 8

/-- v[15:0]: XCELL's high part, ACK's index. -/
def lowHalf (v : Long) : Half := v.extractLsb' 0 16

/-- v[31:0]: XSGN's raw magnitude. -/
def lowWord (v : Long) : Word := v.extractLsb' 0 32

/-- v[15:8] of a 16-bit value: the byte placed first (20_memory.md rule R63). -/
def highByteOf (v : Half) : Byte := v.extractLsb' 8 8

/-- v[7:0] of a 16-bit value: the byte placed second (20_memory.md rule R63). -/
def lowByteOf (v : Half) : Byte := v.extractLsb' 0 8

/-- v[p] (00_scope.md rule R7). -/
def bitAt (v : Long) (p : BitVec 6) : Bool := v.getLsbD p.toNat

/-- (v >> P) & (2^(W+1) - 1) with a width of W + 1 (42_extract.md rule R152); bits above bit 63 read 0. -/
def bitField (v : Long) (pos : BitVec 6) (width : Nat) : Long :=
  (v >>> pos.toNat) &&& BitVec.ofNat 64 (2 ^ width - 1)

/-- The sign law of 42_extract.md rule R155: the magnitude when the bit is 1, else its negation mod 2^64. -/
def applySign (m : Word) (positive : Bool) : Long :=
  if positive then m.setWidth 64 else -(m.setWidth 64)

/-- The corrected cell id, zext_64((h << 8) | l) (42_extract.md rule R159). -/
def correctedCell (h : Half) (l : Byte) : Long := (h.setWidth 64 <<< 8) ||| l.setWidth 64

/-- The packed date/time of 42_extract.md rule R163, from its six bytes: year 2000 + b0 in [55:40], then month, day,
hour, minute, second, one byte each. -/
def packTime (b0 b1 b2 b3 b4 b5 : Byte) : Long :=
  ((2000 + b0.setWidth 64) <<< 40) ||| (b1.setWidth 64 <<< 32) ||| (b2.setWidth 64 <<< 24)
    ||| (b3.setWidth 64 <<< 16) ||| (b4.setWidth 64 <<< 8) ||| b5.setWidth 64

/-- The 15 identifier digits: 8 bytes without the high nibble of the first (42_extract.md rule R167). -/
def packImei (v : Nat) : Long := BitVec.ofNat 64 v &&& 0x0FFFFFFFFFFFFFFF

/-- The value a coordinate register stands for, in degrees (42_extract.md rule R157). The block never divides: this is
what a consumer reads out of the register. -/
def coordDegrees (v : Long) : Rat := (v.toInt : Rat) / 1800000

end Sys2Proof.Machine
end

