-- ==== Sys2Proof/Machine/CrcEngine.lean ====
section
/-! DEFINITION. The CRC-16 algorithm (43_crc.md rules R180 to R183) and the acknowledgment's bytes (rule R190). -/

namespace Sys2Proof.Machine

/-- reflect_N(v): bit i moves to bit N-1-i (43_crc.md rule R180). -/
def reflect {n : Nat} (v : BitVec n) : BitVec n := v.reverse

/-- One of the eight steps of CrcUpdate (43_crc.md rule R180): shift left, dividing by the polynomial. -/
def crcShift (c : Half) : Half := if c.getLsbD 15 then (c <<< 1) ^^^ Config.crcPoly else c <<< 1

/-- k steps of CrcUpdate. -/
def crcShifts : Nat → Half → Half
  | 0, c => c
  | k + 1, c => crcShifts k (crcShift c)

/-- CrcUpdate(c, b) (43_crc.md rule R180). -/
def crcUpdate (cfg : CrcCfg) (c : Half) (b : Byte) : Half :=
  let b' := if cfg.refin then reflect b else b
  crcShifts 8 (c ^^^ (b'.setWidth 16 <<< 8))

/-- CrcUpdate over a byte sequence, first to last (43_crc.md rules R182, R187). -/
def crcFeed (cfg : CrcCfg) (c : Half) (bytes : List Byte) : Half := bytes.foldl (crcUpdate cfg) c

/-- CrcFinal(c) (43_crc.md rule R181). -/
def crcFinal (cfg : CrcCfg) (c : Half) : Half := (if cfg.refout then reflect c else c) ^^^ cfg.xorout

/-- Crc16(bytes) (43_crc.md rule R182). -/
def crc16 (cfg : CrcCfg) (bytes : List Byte) : Half := crcFinal cfg (crcFeed cfg cfg.init bytes)

/-! ## The reflected form of the default instance (43_crc.md rule R183) -/

/-- One step of the reflected form: shift right, with 0x8408. -/
def reflectedShift (r : Half) : Half := (r >>> 1) ^^^ (if r.getLsbD 0 then 0x8408 else 0)

/-- k steps of the reflected form. -/
def reflectedShifts : Nat → Half → Half
  | 0, r => r
  | k + 1, r => reflectedShifts k (reflectedShift r)

/-- One byte of the reflected form: r ^ b, then eight steps. -/
def reflectedUpdate (r : Half) (b : Byte) : Half := reflectedShifts 8 (r ^^^ b.setWidth 16)

/-- The reflected form of CRC-16/X-25 over a byte sequence (43_crc.md rule R183). -/
def crc16Reflected (bytes : List Byte) : Half := bytes.foldl reflectedUpdate 0xFFFF ^^^ 0xFFFF

/-! ## The acknowledgment frame -/

/-- The four bytes whose CRC the acknowledgment carries: [0x05, type, index_hi, index_lo] (43_crc.md rule R190). -/
def ackBody (t : Byte) (i : Half) : List Byte := [0x05, t, highByteOf i, lowByteOf i]

/-- The ten bytes of the acknowledgment (43_crc.md rule R190). -/
def ackFrame (cfg : CrcCfg) (t : Byte) (i : Half) : Vector Byte 10 :=
  let c := crc16 cfg (ackBody t i)
  #v[0x78, 0x78, 0x05, t, highByteOf i, lowByteOf i, highByteOf c, lowByteOf c, 0x0D, 0x0A]

end Sys2Proof.Machine
end

