-- ==== Sys2Proof/Machine/Flags.lean ====
section
/-! DEFINITION. The flags of STATUS, their computation and their words (10_state.md rules R27, R30 to R33;
60_exceptions.md rule R217). The block has no arithmetic flags (10_state.md rule R40). -/

namespace Sys2Proof.Machine

/-- Digit k of an identifier, v[59-4k : 56-4k], k = 0 first (42_extract.md rule R168). -/
def imeiDigit (v : Long) (k : Nat) : BitVec 4 := v.extractLsb' (56 - 4 * k) 4

/-- Some one of the 15 digits is above 9 (42_extract.md rule R167). -/
def hasNonDecimalDigit (v : Long) : Bool := (List.range 15).any fun k => decide (9 < (imeiDigit v k).toNat)

/-- STATUS.NONDEC <- 1 if the condition holds; it is never cleared by a command (10_state.md rule R32). -/
def State.setNondecIf (s : State) (c : Bool) : State :=
  { s with status := { s.status with nondec := s.status.nondec || c } }

/-- STATUS.ACKV <- 1 (10_state.md rule R33). -/
def State.setAckv (s : State) : State := { s with status := { s.status with ackv := true } }

/-- The interrupt line, STATUS.FAULT & CTRL.FAULT_IE (60_exceptions.md rule R217). -/
def State.irq (s : State) : Bool := s.status.fault && s.ctrl.faultIe

/-- What a host read of CTRL returns: the two fields, reserved bits 0 (10_state.md rule R27). -/
def Ctrl.toWord (c : Ctrl) : Word := 0#30 ++ BitVec.ofBool c.faultIe ++ BitVec.ofBool c.cellidMode

/-- The fields of a word written to CTRL; its reserved bits are ignored (10_state.md rule R27). -/
def Ctrl.ofWord (w : Word) : Ctrl := { cellidMode := w.getLsbD 0, faultIe := w.getLsbD 1 }

/-- What a host read of STATUS returns (10_state.md rule R30): IRQ in bit 10, ACKV in 9, NONDEC in 8, CAUSE in [7:4],
FAULT in bit 0, the rest 0. -/
def State.statusWord (s : State) : Word :=
  0#21 ++ BitVec.ofBool s.irq ++ BitVec.ofBool s.status.ackv ++ BitVec.ofBool s.status.nondec
    ++ s.status.cause ++ 0#3 ++ BitVec.ofBool s.status.fault

/-- A host write of w to STATUS (10_state.md rule R30): bits 0, 8 and 9 clear what they name when written 1; bit 0 is
the return from a fault. -/
def State.writeStatus (s : State) (w : Word) : State :=
  let t := if w.getLsbD 0 then s.clearFault else s
  { t with
    status :=
      { t.status with
        nondec := t.status.nondec && !w.getLsbD 8
        ackv := t.status.ackv && !w.getLsbD 9 } }

end Sys2Proof.Machine
end

