-- ==== Sys2Proof/Machine/CrcAck.lean ====
section
/-! DEFINITION. The CRC accumulator commands and the acknowledgment builder (43_crc.md rules R184 to R192). -/

namespace Sys2Proof.Machine

/-- CRCINIT (rule R184): CRC <- CRC_CFG.init. -/
def execCrcinit (s : State) : Result := .next (s.setCrc s.crcCfg.init)

/-- CRCI (rule R185): feed the immediate byte. -/
def execCrci (imm8 : Byte) (s : State) : Result := .next (s.setCrc (crcUpdate s.crcCfg s.crc imm8))

/-- CRCR (rule R186): feed F[RS1][7:0]. -/
def execCrcr (rs1 : RegName) (s : State) : Result :=
  .next (s.setCrc (crcUpdate s.crcCfg s.crc (lowByte (s.readReg rs1))))

/-- CRCM (rule R187): feed `count` bytes of FBUF from address F[RS1], BOUNDS when the range passes FLEN, checked before
any byte is fed. CUR takes no part. -/
def execCrcm (rs1 : RegName) (count : Half) (s : State) : Result :=
  let a := (s.readReg rs1).toNat
  let n := count.toNat
  withinFrame (.crcm rs1 count) (a + n) s (s.setCrc (crcFeed s.crcCfg s.crc (s.fbufBytes a n)))

/-- CRCRD (rule R188): F[RD] <- zext_64(CrcFinal(CRC)). -/
def execCrcrd (rd : RegName) (s : State) : Result :=
  .next (s.writeReg rd ((crcFinal s.crcCfg s.crc).setWidth 64))

/-- ACK (rule R190): the ten bytes for type F[RS1][7:0] and index F[RS2][15:0], and STATUS.ACKV <- 1. The CRC register
takes no part. -/
def execAck (rs1 rs2 : RegName) (s : State) : Result :=
  .next (s.setAbuf (ackFrame s.crcCfg (lowByte (s.readReg rs1)) (lowHalf (s.readReg rs2)))).setAckv

end Sys2Proof.Machine
end

