-- ==== Sys2Proof/Machine/Cursor.lean ====
section
/-! DEFINITION. The cursor and read commands (41_cursor.md rules R120 to R135). -/

namespace Sys2Proof.Machine

/-- SEEK (rule R120): CUR <- imm, BOUNDS when imm > FLEN. -/
def execSeek (imm : Half) (s : State) : Result :=
  withinFrame (.seek imm) imm.toNat s (s.setCur imm.toNat)

/-- SKIP (rule R122): CUR <- CUR + imm, BOUNDS past FLEN. -/
def execSkip (imm : Half) (s : State) : Result := advance (.skip imm) imm.toNat s

/-- SKIPR (rule R124): NEGSKIP when F[RS1] < imm, checked first; else skip F[RS1] - imm bytes, BOUNDS past FLEN. -/
def execSkipr (rs1 : RegName) (imm : Half) (s : State) : Result :=
  let v := (s.readReg rs1).toNat
  let k := imm.toNat
  if v < k then raiseFault .negskip (.skipr rs1 imm) (BitVec.ofInt 32 ((v : Int) - (k : Int))) s
  else advance (.skipr rs1 imm) (v - k) s

/-- TAIL (rule R126): CUR <- FLEN - imm when more than imm bytes remain. Never faults. -/
def execTail (imm : Half) (s : State) : Result :=
  .next (if imm.toNat < s.remaining then s.setCur (s.flen.toNat - imm.toNat) else s)

/-- AVAIL (rule R128): F[RD] <- FLEN - CUR. -/
def execAvail (rd : RegName) (s : State) : Result := .next (s.writeReg rd (BitVec.ofNat 64 s.remaining))

/-- RDU8 (rule R130). -/
def execRdu8 (rd : RegName) (s : State) : Result :=
  readAtCursor (.rdu8 rd) rd 1 ((s.fbufByte s.cur.toNat).setWidth 64) s

/-- RDU16 (rule R132): big-endian. -/
def execRdu16 (rd : RegName) (s : State) : Result :=
  readAtCursor (.rdu16 rd) rd 2 (BitVec.ofNat 64 (s.memRead s.cur.toNat 2)) s

/-- RDU32 (rule R134): big-endian. -/
def execRdu32 (rd : RegName) (s : State) : Result :=
  readAtCursor (.rdu32 rd) rd 4 (BitVec.ofNat 64 (s.memRead s.cur.toNat 4)) s

end Sys2Proof.Machine
end

