-- ==== Sys2Proof/Machine/Extract.lean ====
section
/-! DEFINITION. The field extraction commands (42_extract.md rules R150 to R169). -/

namespace Sys2Proof.Machine

/-- MOVI (rule R150): F[RD] <- zext_64(imm). -/
def execMovi (rd : RegName) (imm : Half) (s : State) : Result := .next (s.writeReg rd (immLong imm))

/-- XBF (rule R152): the unsigned bit field of F[RS1]. -/
def execXbf (rd rs1 : RegName) (pos : BitVec 6) (width : Nat) (s : State) : Result :=
  .next (s.writeReg rd (bitField (s.readReg rs1) pos width))

/-- XSGN (rule R155): the magnitude F[RS1][31:0] under the sign bit F[RS2][P]. -/
def execXsgn (rd rs1 rs2 : RegName) (pos : BitVec 6) (s : State) : Result :=
  .next (s.writeReg rd (applySign (lowWord (s.readReg rs1)) (bitAt (s.readReg rs2) pos)))

/-- The value XCELL gives for the two parts in the mode CTRL.CELLID_MODE selects (rule R159). -/
def cellId (corrected : Bool) (h : Half) (l : Byte) : Long :=
  if corrected then correctedCell h l else Config.cellidCompat h l

/-- XCELL (rule R159). -/
def execXcell (rd rs1 rs2 : RegName) (s : State) : Result :=
  .next (s.writeReg rd (cellId s.ctrl.cellidMode (lowHalf (s.readReg rs1)) (lowByte (s.readReg rs2))))

/-- The packed date/time of the six bytes at an address (rule R163). -/
def State.timeAt (s : State) (a : Nat) : Long :=
  packTime (s.fbufByte a) (s.fbufByte (a + 1)) (s.fbufByte (a + 2)) (s.fbufByte (a + 3)) (s.fbufByte (a + 4))
    (s.fbufByte (a + 5))

/-- XTIME (rule R163). -/
def execXtime (rd : RegName) (s : State) : Result :=
  readAtCursor (.xtime rd) rd 6 (s.timeAt s.cur.toNat) s

/-- XIMEI (rule R167): the 15 digits, and STATUS.NONDEC when one is above 9. -/
def execXimei (rd : RegName) (s : State) : Result :=
  let v := packImei (s.memRead s.cur.toNat 8)
  let endAddr := s.cur.toNat + 8
  withinFrame (.ximei rd) endAddr s (((s.writeReg rd v).setNondecIf (hasNonDecimalDigit v)).setCur endAddr)

end Sys2Proof.Machine
end

