-- ==== Sys2Proof/Machine/Dispatch.lean ====
section
/-! DEFINITION. Executing one command: one arm per constructor of Instr. -/

namespace Sys2Proof.Machine

/-- The effect of a command (30_encoding.md rule R95 names the rule of each). -/
def exec (i : Instr) (s : State) : Host.Outcome State Fault Refusal :=
  match i with
  | .seek imm => Sys2Proof.Machine.execSeek imm s
  | .skip imm => Sys2Proof.Machine.execSkip imm s
  | .skipr rs1 imm => Sys2Proof.Machine.execSkipr rs1 imm s
  | .tail imm => Sys2Proof.Machine.execTail imm s
  | .avail rd => Sys2Proof.Machine.execAvail rd s
  | .rdu8 rd => Sys2Proof.Machine.execRdu8 rd s
  | .rdu16 rd => Sys2Proof.Machine.execRdu16 rd s
  | .rdu32 rd => Sys2Proof.Machine.execRdu32 rd s
  | .movi rd imm => Sys2Proof.Machine.execMovi rd imm s
  | .xbf rd rs1 pos width => Sys2Proof.Machine.execXbf rd rs1 pos width s
  | .xsgn rd rs1 rs2 pos => Sys2Proof.Machine.execXsgn rd rs1 rs2 pos s
  | .xcell rd rs1 rs2 => Sys2Proof.Machine.execXcell rd rs1 rs2 s
  | .xtime rd => Sys2Proof.Machine.execXtime rd s
  | .ximei rd => Sys2Proof.Machine.execXimei rd s
  | .crcinit => Sys2Proof.Machine.execCrcinit s
  | .crci imm8 => Sys2Proof.Machine.execCrci imm8 s
  | .crcr rs1 => Sys2Proof.Machine.execCrcr rs1 s
  | .crcm rs1 count => Sys2Proof.Machine.execCrcm rs1 count s
  | .crcrd rd => Sys2Proof.Machine.execCrcrd rd s
  | .ack rs1 rs2 => Sys2Proof.Machine.execAck rs1 rs2 s

end Sys2Proof.Machine
end

