-- ==== Sys2Proof/Machine/HostRegs.lean ====
section
/-! DEFINITION. The host register map and what a host read returns and a host write stores (20_memory.md rules R64 to
R68; 10_state.md rules R21, R24, R27, R30, R34 to R39). A write to CMD runs a command: Machine/Bus.lean. -/

namespace Sys2Proof.Machine

/-- What a host address names (20_memory.md rule R64). -/
inductive HostReg where
  | ctrl | status | cmd | flen | cur | crc | faultCmd | faultInfo | id
  /-- F[i][31:0]. -/
  | fieldLow (i : RegName)
  /-- F[i][63:32]. -/
  | fieldHigh (i : RegName)
  /-- ABUF[4k] to ABUF[4k+3]. -/
  | abufWord (k : Nat)
  /-- FBUF[4k] to FBUF[4k+3]. -/
  | fbufWord (k : Nat)
  | reserved
  deriving DecidableEq, Repr

/-- The word address an access acts on, A & 0xFFC (20_memory.md rule R65). -/
def wordAddr (a : HostAddr) : Nat := (a &&& 0xFFC).toNat

/-- The control registers, by word number: host addresses 0x000 to 0x020, then reserved (20_memory.md rule R64). -/
def controlReg : Nat → HostReg
  | 0 => .ctrl
  | 1 => .status
  | 2 => .cmd
  | 3 => .flen
  | 4 => .cur
  | 5 => .crc
  | 6 => .faultCmd
  | 7 => .faultInfo
  | 8 => .id
  | _ => .reserved

/-- The halves of the field registers, by word number from 0x040 on: low, high, low, high, ... (20_memory.md rule R64). -/
def fieldHalf (k : Nat) : HostReg :=
  if k % 2 = 0 then .fieldLow (Fin.ofNat 8 (k / 2)) else .fieldHigh (Fin.ofNat 8 (k / 2))

/-- The host address map (20_memory.md rule R64). -/
def hostReg (a : HostAddr) : HostReg :=
  if wordAddr a < 0x040 then controlReg (wordAddr a / 4)
  else if wordAddr a < 0x080 then fieldHalf ((wordAddr a - 0x040) / 4)
  else if wordAddr a < 0x300 then .reserved
  else if wordAddr a < 0x30C then .abufWord ((wordAddr a - 0x300) / 4)
  else if wordAddr a < 0x400 then .reserved
  else if wordAddr a < 0x600 then .fbufWord ((wordAddr a - 0x400) / 4)
  else .reserved

/-- Four bytes as a bus word, the first byte in bits [7:0] (20_memory.md rules R66, R67). -/
def lanes (b0 b1 b2 b3 : Byte) : Word := b3 ++ b2 ++ b1 ++ b0

/-- The byte in lane k of a bus word. -/
def laneByte (w : Word) (k : Nat) : Byte := w.extractLsb' (8 * k) 8

/-- What a host read of an address returns (20_memory.md rules R64 to R68). It changes nothing. -/
def hostRead (s : State) (a : HostAddr) : Word :=
  match hostReg a with
  | .ctrl => s.ctrl.toWord
  | .status => s.statusWord
  | .cmd => 0
  | .flen => s.flen.setWidth 32
  | .cur => s.cur.setWidth 32
  | .crc => s.crc.setWidth 32
  | .faultCmd => s.faultCmd
  | .faultInfo => s.faultInfo
  | .id => Config.idValue
  | .fieldLow i => (s.readReg i).extractLsb' 0 32
  | .fieldHigh i => (s.readReg i).extractLsb' 32 32
  | .abufWord k => lanes (s.abufByte (4 * k)) (s.abufByte (4 * k + 1)) (s.abufByte (4 * k + 2)) (s.abufByte (4 * k + 3))
  | .fbufWord k => lanes (s.fbufByte (4 * k)) (s.fbufByte (4 * k + 1)) (s.fbufByte (4 * k + 2)) (s.fbufByte (4 * k + 3))
  | .reserved => 0

/-- A host write to CTRL (10_state.md rule R27). -/
def State.writeCtrl (s : State) (w : Word) : State := { s with ctrl := Ctrl.ofWord w }

/-- A host write to FLEN (10_state.md rule R24): above FBUF_BYTES it raises HOSTRANGE, FAULT_CMD 0 and FAULT_INFO the
value written; otherwise it sets FLEN and resets CUR. -/
def State.writeFlen (s : State) (w : Word) : State :=
  if Config.fbufBytes < w.toNat then s.recordFault .hostrange 0 w
  else { s with flen := w.setWidth 10, cur := 0 }

/-- A host write to F[i][31:0]; the other half is kept (10_state.md rule R21). -/
def State.writeFieldLow (s : State) (i : RegName) (w : Word) : State :=
  s.writeReg i ((s.readReg i).extractLsb' 32 32 ++ w)

/-- A host write to F[i][63:32]; the other half is kept (10_state.md rule R21). -/
def State.writeFieldHigh (s : State) (i : RegName) (w : Word) : State :=
  s.writeReg i (w ++ (s.readReg i).extractLsb' 0 32)

/-- A host write of FBUF[4k] to FBUF[4k+3] (20_memory.md rule R66). -/
def State.writeFbufWord (s : State) (k : Nat) (w : Word) : State :=
  (((s.writeFbufByte (4 * k) (laneByte w 0)).writeFbufByte (4 * k + 1) (laneByte w 1)).writeFbufByte (4 * k + 2)
    (laneByte w 2)).writeFbufByte (4 * k + 3) (laneByte w 3)

end Sys2Proof.Machine
end

