-- ==== Sys2Proof/Machine/Bus.lean ====
section
/-! DEFINITION. The host interface: a write to CMD runs a command, the other accesses read and write registers and
buffers, and the reset input restarts the block (10_state.md rule R37; 20_memory.md rules R64 to R68;
70_reset_and_hazards.md rule R240). -/

namespace Sys2Proof.Machine

/-- A host write of w to CMD (10_state.md rule R37): discarded while a fault is pending (60_exceptions.md rule R215),
else decoded and executed; an illegal word raises Fault(ILLEGAL, 0) (30_encoding.md rule R97). -/
def commandWrite (w : Word) (s : State) : Result :=
  if s.status.fault then .next s
  else
    match decode w with
    | .error _ => .next (s.recordFault .illegal w 0)
    | .ok i => exec i s

/-- A host write (20_memory.md rules R64, R68): a write to a read-only or reserved address is ignored. -/
def hostWrite (a : HostAddr) (w : Word) (s : State) : Result :=
  match hostReg a with
  | .ctrl => .next (s.writeCtrl w)
  | .status => .next (s.writeStatus w)
  | .cmd => commandWrite w s
  | .flen => .next (s.writeFlen w)
  | .fieldLow i => .next (s.writeFieldLow i w)
  | .fieldHigh i => .next (s.writeFieldHigh i w)
  | .fbufWord k => .next (s.writeFbufWord k w)
  | .cur => .next s
  | .crc => .next s
  | .faultCmd => .next s
  | .faultInfo => .next s
  | .id => .next s
  | .abufWord _ => .next s
  | .reserved => .next s

/-- The word a host read returned joins the list of those returned; the block does not change (20_memory.md rule R68). -/
def State.answerRead (s : State) (v : Word) : State := { s with busReads := v :: s.busReads }

/-- One event of the bus order. While the reset input is asserted the block accepts no host access
(70_reset_and_hazards.md rule R240; 93_implementation_defined.md I20: stuck). -/
def busEvent (e : BusEvent) (s : State) : Result :=
  match e with
  | .write a w => if s.inReset then .fault .accessInReset else hostWrite a w s
  | .read a => if s.inReset then .fault .accessInReset else .next (s.answerRead (hostRead s a))
  | .resetAssert => .next s.assertReset
  | .resetRelease => .next s.releaseReset

/-- The state with another list of events to come. -/
def State.withQueue (s : State) (q : List BusEvent) : State := { s with busQueue := q }

/-- The host's write of a command word to CMD, host address 0x008 (10_state.md rule R37). -/
def cmdWrite (w : Word) : BusEvent := .write 0x008 w

end Sys2Proof.Machine
end

