-- ==== Sys2Proof/Machine/Step.lean ====
section
/-! DEFINITION. One step of the machine: the next event of the bus order (20_memory.md rule R75; log entry 1). -/

namespace Sys2Proof.Machine

/-- One step: the next event, if the host has one; with none the block is idle and keeps its state
(70_reset_and_hazards.md rule R242; 60_exceptions.md rule R227; log entry 2). -/
def step (s : State) : Host.Outcome State Fault Refusal :=
  match s.busQueue with
  | [] => .next s
  | e :: rest => busEvent e (s.withQueue rest)

/-- The state in which the host's next access is the write of the word `w` to CMD: that is where this machine takes its
next command from (10_state.md rule R25). The events that were to come follow it. -/
def State.withFetchWord (s : State) (nbits w : Nat) : State :=
  s.withQueue (cmdWrite (BitVec.ofNat 32 (w % 2 ^ nbits)) :: s.busQueue)

end Sys2Proof.Machine
end

