-- ==== Sys2Proof/Machine/Pseudo.lean ====
section
/-! DEFINITION. The pseudo-instructions and their expansions (30_encoding.md rule R101). -/

namespace Sys2Proof.Machine

/-- The rows of rule R101. -/
inductive Pseudo where
  | hdr
  | nop
  | mov (fd fs : RegName)
  | course (fd fs : RegName)
  | north (fd fs : RegName)
  | east (fd fs : RegName)
  | valid (fd fs : RegName)
  | gpslen (fd fs : RegName)
  | sats (fd fs : RegName)
  | lat (fd fm ff : RegName)
  | lon (fd fm ff : RegName)
  | crc16 (fd fa : RegName) (count : Half)
  deriving DecidableEq, Repr

/-- The commands a pseudo-instruction stands for, in order (rule R101). -/
def Pseudo.expand : Pseudo → List Instr
  | .hdr => [.skip 2]
  | .nop => [.skip 0]
  | .mov fd fs => [.xbf fd fs 0 64]
  | .course fd fs => [.xbf fd fs 0 10]
  | .north fd fs => [.xbf fd fs 10 1]
  | .east fd fs => [.xbf fd fs 11 1]
  | .valid fd fs => [.xbf fd fs 12 1]
  | .gpslen fd fs => [.xbf fd fs 4 4]
  | .sats fd fs => [.xbf fd fs 0 4]
  | .lat fd fm ff => [.xsgn fd fm ff 10]
  | .lon fd fm ff => [.xsgn fd fm ff 11]
  | .crc16 fd fa count => [.crcinit, .crcm fa count, .crcrd fd]

end Sys2Proof.Machine
end

