-- ==== Sys2Proof/Machine/Assembler.lean ====
section
/-! DEFINITION. The assembler of 30_encoding.md rule R100, one line of source at a time, and the pseudo-instructions of
rule R101. A line is a list of characters. -/

namespace Sys2Proof.Machine

/-- The mnemonics of rules R95 and R101. -/
inductive Mnemonic where
  | seek | skip | skipr | tail | avail | rdu8 | rdu16 | rdu32
  | movi | xbf | xsgn | xcell | xtime | ximei
  | crcinit | crci | crcr | crcm | crcrd | ack
  | hdr | nop | mov | course | north | east | valid | gpslen | sats | lat | lon | crc16
  deriving DecidableEq, Repr

/-- The letters of each mnemonic. -/
def Mnemonic.table : List (List Char × Mnemonic) :=
  [(['S', 'E', 'E', 'K'], .seek), (['S', 'K', 'I', 'P'], .skip), (['S', 'K', 'I', 'P', 'R'], .skipr),
   (['T', 'A', 'I', 'L'], .tail), (['A', 'V', 'A', 'I', 'L'], .avail), (['R', 'D', 'U', '8'], .rdu8),
   (['R', 'D', 'U', '1', '6'], .rdu16), (['R', 'D', 'U', '3', '2'], .rdu32)]
  ++ [(['M', 'O', 'V', 'I'], .movi), (['X', 'B', 'F'], .xbf), (['X', 'S', 'G', 'N'], .xsgn),
   (['X', 'C', 'E', 'L', 'L'], .xcell), (['X', 'T', 'I', 'M', 'E'], .xtime), (['X', 'I', 'M', 'E', 'I'], .ximei)]
  ++ [(['C', 'R', 'C', 'I', 'N', 'I', 'T'], .crcinit), (['C', 'R', 'C', 'I'], .crci), (['C', 'R', 'C', 'R'], .crcr),
   (['C', 'R', 'C', 'M'], .crcm), (['C', 'R', 'C', 'R', 'D'], .crcrd), (['A', 'C', 'K'], .ack)]
  ++ [(['H', 'D', 'R'], .hdr), (['N', 'O', 'P'], .nop), (['M', 'O', 'V'], .mov),
   (['C', 'O', 'U', 'R', 'S', 'E'], .course), (['N', 'O', 'R', 'T', 'H'], .north), (['E', 'A', 'S', 'T'], .east)]
  ++ [(['V', 'A', 'L', 'I', 'D'], .valid), (['G', 'P', 'S', 'L', 'E', 'N'], .gpslen), (['S', 'A', 'T', 'S'], .sats),
   (['L', 'A', 'T'], .lat), (['L', 'O', 'N'], .lon), (['C', 'R', 'C', '1', '6'], .crc16)]

/-- An operand as written: a register or a number. -/
inductive Operand where
  | reg (r : RegName)
  | num (n : Nat)
  deriving DecidableEq, Repr

/-- Why the assembler rejects a line. -/
inductive AsmError where
  /-- The first word is no mnemonic. -/
  | unknownMnemonic
  /-- An operand is neither a register F0 to F7 nor a number. -/
  | badOperand
  /-- The mnemonic does not take these operands. -/
  | wrongOperands
  /-- An immediate, position or width is outside its field. -/
  | outOfField
  deriving DecidableEq, Repr

/-- A letter in upper case: mnemonics are case-insensitive. -/
def upperChar (c : Char) : Char := if 'a' ≤ c ∧ c ≤ 'z' then Char.ofNat (c.toNat - 32) else c

/-- A blank. -/
def isBlank (c : Char) : Bool := c == ' ' || c == '\t' || c == '\r'

/-- The characters without the blanks at both ends. -/
def trimBlanks (l : List Char) : List Char := ((l.dropWhile isBlank).reverse.dropWhile isBlank).reverse

/-- The text before a `;`, which starts a comment. -/
def withoutComment (l : List Char) : List Char := l.takeWhile (· ≠ ';')

/-- The pieces between commas. -/
def splitCommas : List Char → List (List Char)
  | [] => [[]]
  | c :: l =>
    match splitCommas l with
    | [] => [[c]]
    | p :: ps => if c = ',' then [] :: p :: ps else (c :: p) :: ps

/-- The value of a digit of base 16, if the character is one. -/
def digitValue (c : Char) : Option Nat :=
  if '0' ≤ c ∧ c ≤ '9' then some (c.toNat - 48)
  else if 'A' ≤ c ∧ c ≤ 'F' then some (c.toNat - 55)
  else if 'a' ≤ c ∧ c ≤ 'f' then some (c.toNat - 87)
  else none

/-- The number the digits write in a base, most significant digit first. -/
def parseDigits (base : Nat) : Nat → List Char → Option Nat
  | acc, [] => some acc
  | acc, c :: l =>
    match digitValue c with
    | none => none
    | some d => if d < base then parseDigits base (acc * base + d) l else none

/-- An operand: F0 to F7, a `0x` hexadecimal number or a decimal number. -/
def parseOperand : List Char → Except AsmError Operand
  | ['F', d] =>
    match digitValue d with
    | none => .error .badOperand
    | some n => if n < 8 then .ok (.reg (Fin.ofNat 8 n)) else .error .badOperand
  | '0' :: 'x' :: d :: l =>
    match parseDigits 16 0 (d :: l) with
    | none => .error .badOperand
    | some n => .ok (.num n)
  | d :: l =>
    match parseDigits 10 0 (d :: l) with
    | none => .error .badOperand
    | some n => .ok (.num n)
  | [] => .error .badOperand

/-- Every operand of a list, or the first rejection. -/
def parseOperands : List (List Char) → Except AsmError (List Operand)
  | [] => .ok []
  | p :: ps =>
    match parseOperand (trimBlanks p) with
    | .error e => .error e
    | .ok o =>
      match parseOperands ps with
      | .error e => .error e
      | .ok os => .ok (o :: os)

/-- The commands, if the number is at most a field's greatest value; otherwise the assembler rejects the line. -/
def ifFits (n greatest : Nat) (is : List Instr) : Except AsmError (List Instr) :=
  if n ≤ greatest then .ok is else .error .outOfField

/-- The operand order of each command (rule R100) and of each pseudo-instruction (rule R101). -/
def assembleCommand (m : Mnemonic) (ops : List Operand) : Except AsmError (List Instr) :=
  match m, ops with
  | .seek, [.num n] => ifFits n 65535 [.seek (BitVec.ofNat 16 n)]
  | .skip, [.num n] => ifFits n 65535 [.skip (BitVec.ofNat 16 n)]
  | .skipr, [.reg s, .num n] => ifFits n 65535 [.skipr s (BitVec.ofNat 16 n)]
  | .tail, [.num n] => ifFits n 65535 [.tail (BitVec.ofNat 16 n)]
  | .avail, [.reg d] => .ok [.avail d]
  | .rdu8, [.reg d] => .ok [.rdu8 d]
  | .rdu16, [.reg d] => .ok [.rdu16 d]
  | .rdu32, [.reg d] => .ok [.rdu32 d]
  | .movi, [.reg d, .num n] => ifFits n 65535 [.movi d (BitVec.ofNat 16 n)]
  | .xbf, [.reg d, .reg s, .num p, .num w] =>
    if p ≤ 63 ∧ 1 ≤ w ∧ w ≤ 64 then .ok [.xbf d s (BitVec.ofNat 6 p) w] else .error .outOfField
  | .xsgn, [.reg d, .reg fm, .reg ff, .num p] => ifFits p 63 [.xsgn d fm ff (BitVec.ofNat 6 p)]
  | .xcell, [.reg d, .reg h, .reg l] => .ok [.xcell d h l]
  | .xtime, [.reg d] => .ok [.xtime d]
  | .ximei, [.reg d] => .ok [.ximei d]
  | .crcinit, [] => .ok [.crcinit]
  | .crci, [.num n] => ifFits n 255 [.crci (BitVec.ofNat 8 n)]
  | .crcr, [.reg s] => .ok [.crcr s]
  | .crcm, [.reg a, .num n] => ifFits n 65535 [.crcm a (BitVec.ofNat 16 n)]
  | .crcrd, [.reg d] => .ok [.crcrd d]
  | .ack, [.reg t, .reg i] => .ok [.ack t i]
  | .hdr, [] => .ok Pseudo.hdr.expand
  | .nop, [] => .ok Pseudo.nop.expand
  | .mov, [.reg d, .reg s] => .ok (Pseudo.mov d s).expand
  | .course, [.reg d, .reg s] => .ok (Pseudo.course d s).expand
  | .north, [.reg d, .reg s] => .ok (Pseudo.north d s).expand
  | .east, [.reg d, .reg s] => .ok (Pseudo.east d s).expand
  | .valid, [.reg d, .reg s] => .ok (Pseudo.valid d s).expand
  | .gpslen, [.reg d, .reg s] => .ok (Pseudo.gpslen d s).expand
  | .sats, [.reg d, .reg s] => .ok (Pseudo.sats d s).expand
  | .lat, [.reg d, .reg fm, .reg ff] => .ok (Pseudo.lat d fm ff).expand
  | .lon, [.reg d, .reg fm, .reg ff] => .ok (Pseudo.lon d fm ff).expand
  | .crc16, [.reg d, .reg a, .num n] => ifFits n 65535 (Pseudo.crc16 d a (BitVec.ofNat 16 n)).expand
  | _, _ => .error .wrongOperands

/-- The mnemonic a first word names, in any case of letters. -/
def parseMnemonic (w : List Char) : Option Mnemonic :=
  (Mnemonic.table.find? (fun e => e.1 == w.map upperChar)).map (·.2)

/-- The operands written after the mnemonic: none, or pieces between commas. -/
def operandPieces (l : List Char) : List (List Char) := if l = [] then [] else splitCommas l

/-- One line of source: its commands, none for a blank or comment line, or a rejection (rule R100). -/
def assembleLine (line : List Char) : Except AsmError (List Instr) :=
  let code := trimBlanks (withoutComment line)
  if code = [] then .ok []
  else
    match parseMnemonic (code.takeWhile (fun c => !isBlank c)) with
    | none => .error .unknownMnemonic
    | some m =>
      match parseOperands (operandPieces (trimBlanks (code.dropWhile (fun c => !isBlank c)))) with
      | .error e => .error e
      | .ok ops => assembleCommand m ops

/-- A source text, line after line. -/
def assemble : List (List Char) → Except AsmError (List Instr)
  | [] => .ok []
  | l :: ls =>
    match assembleLine l with
    | .error e => .error e
    | .ok is =>
      match assemble ls with
      | .error e => .error e
      | .ok js => .ok (is ++ js)

end Sys2Proof.Machine
end

