-- ==== Sys2Proof/Machine/Frame.lean ====
section
/-! DEFINITION. Inbound frames as the host loads them (20_memory.md rules R69, R71; 70_reset_and_hazards.md rule R244). -/

namespace Sys2Proof.Machine

/-- A complete inbound frame (20_memory.md rule R69), without the bytes that rule fixes. -/
structure InboundFrame where
  /-- The message type, address 3. -/
  type : Byte
  /-- The payload, addresses 4 to L-2. -/
  payload : List Byte
  /-- The index, addresses L-1 and L. -/
  index : Half
  /-- The checksum, addresses L+1 and L+2. The block never looks at it (43_crc.md rule R189). -/
  checksum : Half
  deriving DecidableEq, Repr

/-- The length byte's value L: it counts the type through the checksum, `1 + (L-5) + 2 + 2 = L` (20_memory.md rule
R69). -/
def InboundFrame.length (fr : InboundFrame) : Nat := fr.payload.length + 5

/-- The bytes of a complete frame in address order: header, L, type, payload, index, checksum, trailer (20_memory.md
rules R63, R69). -/
def InboundFrame.bytes (fr : InboundFrame) : List Byte :=
  [0x78, 0x78, BitVec.ofNat 8 fr.length, fr.type] ++ fr.payload
    ++ [highByteOf fr.index, lowByteOf fr.index, highByteOf fr.checksum, lowByteOf fr.checksum, 0x0D, 0x0A]

/-- The checksum a host that validates expects: the CRC over addresses 2 to L (43_crc.md rule R189). -/
def InboundFrame.expectedChecksum (cfg : CrcCfg) (fr : InboundFrame) : Half :=
  crc16 cfg ((fr.bytes.drop 2).take (fr.length - 1))

/-- Bytes as bus words for the FBUF window, four a word; the lanes past the last byte hold `pad` (20_memory.md rule
R66). -/
def busWords (pad : Byte) : List Byte → List Word
  | [] => []
  | [a] => [lanes a pad pad pad]
  | [a, b] => [lanes a b pad pad]
  | [a, b, c] => [lanes a b c pad]
  | a :: b :: c :: d :: l => lanes a b c d :: busWords pad l

/-- Host writes of consecutive words into the FBUF window from word k on (20_memory.md rule R66). -/
def fbufWrites : Nat → List Word → List BusEvent
  | _, [] => []
  | k, w :: ws => .write (BitVec.ofNat 12 (0x400 + 4 * k)) w :: fbufWrites (k + 1) ws

/-- Steps 2 and 3 of 70_reset_and_hazards.md rule R244: the frame's bytes into FBUF from address 0, then their count to
FLEN. What the host puts into the lanes past the last byte is its own choice, `pad`. -/
def loadFrame (pad : Byte) (bytes : List Byte) : List BusEvent :=
  fbufWrites 0 (busWords pad bytes) ++ [.write 0x00C (BitVec.ofNat 32 bytes.length)]

end Sys2Proof.Machine
end

