-- ==== Sys2Proof/Machine/Payload.lean ====
section
/-! DEFINITION. The payload layouts of inbound frames (20_memory.md rules R70, R71), as byte sequences. The block never
interprets a payload by itself: the host's commands do. -/

namespace Sys2Proof.Machine

/-- A 32-bit value in a frame: the most significant byte first (20_memory.md rule R61). -/
def wordBytes (w : Word) : List Byte := [laneByte w 3, laneByte w 2, laneByte w 1, laneByte w 0]

/-- A 16-bit value in a frame: high byte first (20_memory.md rules R61, R63). -/
def halfBytes (v : Half) : List Byte := [highByteOf v, lowByteOf v]

/-- The LBS fields of a position payload, 8 bytes (20_memory.md rule R70). -/
structure LbsFields where
  /-- Mobile country code, 2 bytes. -/
  mcc : Half
  /-- Mobile network code, 1 byte. -/
  mnc : Byte
  /-- Location area code, 2 bytes. -/
  lac : Half
  /-- The cell id's high part, 2 bytes. -/
  cellHigh : Half
  /-- The cell id's low part, 1 byte. -/
  cellLow : Byte
  deriving DecidableEq, Repr

/-- The LBS fields in order. -/
def LbsFields.bytes (l : LbsFields) : List Byte :=
  halfBytes l.mcc ++ [l.mnc] ++ halfBytes l.lac ++ halfBytes l.cellHigh ++ [l.cellLow]

/-- What follows the GPS block, by message type (20_memory.md rule R70). -/
inductive PositionRest where
  /-- Type 0x10: nothing. -/
  | gpsOnly
  /-- Type 0x12: the LBS fields, with no length byte and no reserved bytes (91_not_in_source.md N6). -/
  | gpsLbs (lbs : LbsFields)
  /-- Type 0x16: S, the LBS fields, S - 9 reserved bytes, then the status block. -/
  | gpsLbsStatus (lbsLength : Byte) (lbs : LbsFields) (reserved : List Byte) (flags power gsm : Byte)
  deriving DecidableEq, Repr

/-- The bytes of the part after the GPS block. -/
def PositionRest.bytes : PositionRest → List Byte
  | .gpsOnly => []
  | .gpsLbs l => l.bytes
  | .gpsLbsStatus n l reserved flags power gsm => [n] ++ l.bytes ++ reserved ++ [flags, power, gsm]

/-- S counts its own byte, the LBS fields and the reserved bytes. -/
def PositionRest.wf : PositionRest → Bool
  | .gpsOnly => true
  | .gpsLbs _ => true
  | .gpsLbsStatus n _ reserved _ _ _ => decide (n.toNat = 9 + reserved.length)

/-- A position payload (20_memory.md rule R70). -/
structure PositionPayload where
  /-- Year less 2000, month, day, hour, minute, second: addresses 4 to 9. -/
  time : Vector Byte 6
  /-- G, the high nibble of address 10. -/
  gpsLength : BitVec 4
  /-- The satellite count, the low nibble of address 10. -/
  satellites : BitVec 4
  /-- The latitude's raw magnitude, addresses 11 to 14. -/
  latitude : Word
  /-- The longitude's raw magnitude, addresses 15 to 18. -/
  longitude : Word
  /-- The speed, address 19. -/
  speed : Byte
  /-- The course and flags, addresses 20 and 21. -/
  courseFlags : Half
  /-- The G - 12 reserved bytes from address 22. -/
  reserved : List Byte
  /-- What the message type adds. -/
  rest : PositionRest
  /-- Bytes beyond those, which TAIL 6 passes over (41_cursor.md rule R127). -/
  vendor : List Byte
  deriving DecidableEq, Repr

/-- The bytes of a position payload, from frame address 4 on. -/
def PositionPayload.bytes (p : PositionPayload) : List Byte :=
  p.time.toList ++ [p.gpsLength ++ p.satellites] ++ wordBytes p.latitude ++ wordBytes p.longitude ++ [p.speed]
    ++ halfBytes p.courseFlags ++ p.reserved ++ p.rest.bytes ++ p.vendor

/-- The two length counts of a position payload agree with its parts: G = 12 + reserved bytes. -/
def PositionPayload.wf (p : PositionPayload) : Bool :=
  decide (p.gpsLength.toNat = 12 + p.reserved.length) && p.rest.wf

/-- A login payload: the 8 identifier bytes, then bytes that are skipped (20_memory.md rule R71). -/
structure LoginPayload where
  /-- The identifier, frame addresses 4 to 11. -/
  identifier : Vector Byte 8
  /-- The rest, data_length - 8 bytes. -/
  skipped : List Byte
  deriving DecidableEq, Repr

/-- The bytes of a login payload, from frame address 4 on. -/
def LoginPayload.bytes (p : LoginPayload) : List Byte := p.identifier.toList ++ p.skipped

end Sys2Proof.Machine
end

