-- ==== Sys2Proof/Safety.lean ====
section
/-! DEFINITION. The terms claims are stated in: the invariant of 10_state.md rule R42, what a command or an access leaves
unchanged, what a fault record is, and running several commands. -/

namespace Sys2Proof.Machine

/-- The invariants of 10_state.md rule R42, and the canonical form of FBUF's list. They hold at every point a host access
can observe. -/
structure State.Inv (s : State) : Prop where
  /-- FLEN <= 512. -/
  flen_le : s.flen.toNat ≤ 512
  /-- CUR <= FLEN. -/
  cur_le : s.cur.toNat ≤ s.flen.toNat
  /-- STATUS.CAUSE = 0 exactly when STATUS.FAULT = 0. -/
  cause_zero : s.status.cause = 0 ↔ s.status.fault = false
  /-- STATUS.CAUSE is one of 1 to 4 when STATUS.FAULT = 1. -/
  cause_code : s.status.fault = true → 1 ≤ s.status.cause.toNat ∧ s.status.cause.toNat ≤ 4
  /-- FBUF's list is canonical and inside FBUF. -/
  fbuf_wf : s.fbuf.wf = true

/-- Every field register but `d` reads in t as in s. -/
def SameFieldRegsBut (d : RegName) (s t : State) : Prop := ∀ r, r ≠ d → t.readReg r = s.readReg r

/-- Every field register reads in t as in s. -/
def SameFieldRegs (s t : State) : Prop := ∀ r, t.readReg r = s.readReg r

/-- Every FBUF byte reads in t as in s. -/
def SameFbuf (s t : State) : Prop := ∀ a, t.fbufByte a = s.fbufByte a

/-- Every ABUF byte reads in t as in s. -/
def SameAbuf (s t : State) : Prop := ∀ k, t.abufByte k = s.abufByte k

/-- The model's own fields: which reset, the reset input, the events to come and the words read. -/
def SameHostSide (s t : State) : Prop :=
  t.epoch = s.epoch ∧ t.inReset = s.inReset ∧ t.busQueue = s.busQueue ∧ t.busReads = s.busReads

/-- What no command writes unless it raises a fault: FLEN, CTRL, the instance's parameters, FAULT and CAUSE, FAULT_CMD and
FAULT_INFO, every byte of FBUF, and the model's own fields. -/
def SameOutsideCommands (s t : State) : Prop :=
  t.flen = s.flen ∧ t.ctrl = s.ctrl ∧ t.crcCfg = s.crcCfg
    ∧ t.status.fault = s.status.fault ∧ t.status.cause = s.status.cause
    ∧ t.faultCmd = s.faultCmd ∧ t.faultInfo = s.faultInfo
    ∧ SameFbuf s t ∧ SameHostSide s t

/-- The two flags a command may set. -/
def SameFlags (s t : State) : Prop := t.status.nondec = s.status.nondec ∧ t.status.ackv = s.status.ackv

/-- The frame of a command that writes CUR only. -/
def OnlyCursor (s t : State) : Prop :=
  SameFieldRegs s t ∧ t.crc = s.crc ∧ SameFlags s t ∧ SameAbuf s t ∧ SameOutsideCommands s t

/-- The frame of a command that writes F[d] only. -/
def OnlyFieldReg (d : RegName) (s t : State) : Prop :=
  SameFieldRegsBut d s t ∧ t.cur = s.cur ∧ t.crc = s.crc ∧ SameFlags s t ∧ SameAbuf s t ∧ SameOutsideCommands s t

/-- The frame of a command that writes F[d] and CUR only. -/
def OnlyFieldRegAndCursor (d : RegName) (s t : State) : Prop :=
  SameFieldRegsBut d s t ∧ t.crc = s.crc ∧ SameFlags s t ∧ SameAbuf s t ∧ SameOutsideCommands s t

/-- The frame of a command that writes CRC only. -/
def OnlyCrc (s t : State) : Prop :=
  SameFieldRegs s t ∧ t.cur = s.cur ∧ SameFlags s t ∧ SameAbuf s t ∧ SameOutsideCommands s t

/-- t is s with the fault record of 60_exceptions.md rule R214 and nothing else: FAULT 1, CAUSE `code`, FAULT_CMD `cmd`,
FAULT_INFO `info` mod 2^32. -/
def FaultRecorded (code : Nat) (cmd : Word) (info : Int) (s t : State) : Prop :=
  t.status.fault = true ∧ t.status.cause.toNat = code ∧ t.faultCmd = cmd
    ∧ (t.faultInfo.toNat : Int) = info % 2 ^ 32
    ∧ SameFieldRegs s t ∧ t.cur = s.cur ∧ t.flen = s.flen ∧ t.crc = s.crc ∧ t.ctrl = s.ctrl ∧ t.crcCfg = s.crcCfg
    ∧ SameFlags s t ∧ SameFbuf s t ∧ SameAbuf s t ∧ SameHostSide s t

/-- A command raises a fault on s: it answers a next state that is s with the record. -/
def Raises (i : Instr) (code : Nat) (info : Int) (s : State) : Prop :=
  ∃ t, exec i s = .next t ∧ FaultRecorded code (encode i) info s t

/-- A command may raise a fault only when none is pending (a pending fault discards it): on such a state it raises the
fault. -/
def RaisesIfNonePending (i : Instr) (code : Nat) (info : Int) (s : State) : Prop :=
  s.status.fault = false → Raises i code info s

/-- No word with the OP value `op` and a 1 in the `len` bits from bit `lo` on is a command (30_encoding.md rule R97). -/
def MustBeZero (op lo len : Nat) : Prop :=
  ∀ w : Word, w.toNat / 2 ^ 24 = op → w.toNat / 2 ^ lo % 2 ^ len ≠ 0 → ∀ i, decode w ≠ .ok i

/-- Nibble k of the eight identifier bytes at an address: the low nibble of the first byte, then the high and low nibbles
of each later byte, in order (42_extract.md rule R168). -/
def identifierNibble (s : State) (a k : Nat) : Nat :=
  if k = 0 then (s.fbufByte a).toNat % 16
  else if k % 2 = 1 then (s.fbufByte (a + (k + 1) / 2)).toNat / 16
  else (s.fbufByte (a + k / 2)).toNat % 16

/-- The state with other FBUF contents: another list of written bytes and another draw of the unspecified ones. -/
def State.withFbuf (s : State) (m : Memory) (epoch : Nat) : State := { s with fbuf := m, epoch := epoch }

/-- A host access: a read or a write, not a change of the reset input. -/
def BusEvent.isAccess : BusEvent → Bool
  | .write _ _ => true
  | .read _ => true
  | .resetAssert => false
  | .resetRelease => false

/-- Commands one after the other, as their host writes would run them. -/
def execAll : List Instr → State → Result
  | [], s => .next s
  | i :: is, s =>
    match exec i s with
    | .next t => execAll is t
    | .fault r => .fault r
    | .refused r => .refused r

/-- k steps, each event of the bus order in turn, as the host's `Core.run` takes them on this machine. -/
def runSteps : Nat → State → Result
  | 0, s => .next s
  | k + 1, s =>
    match step s with
    | .next t => runSteps k t
    | .fault r => .fault r
    | .refused r => .refused r

/-- A CRC feed command: CRCI, CRCR or CRCM (43_crc.md rules R185 to R187). -/
inductive Feed where
  | crci (imm8 : Byte)
  | crcr (rs1 : RegName)
  | crcm (rs1 : RegName) (count : Half)
  deriving DecidableEq, Repr

/-- The command of a feed. -/
def Feed.instr : Feed → Instr
  | .crci b => .crci b
  | .crcr r => .crcr r
  | .crcm r n => .crcm r n

/-- The bytes a feed command feeds in a state (43_crc.md rules R185 to R187). -/
def Feed.bytes (s : State) : Feed → List Byte
  | .crci b => [b]
  | .crcr r => [lowByte (s.readReg r)]
  | .crcm r n => s.fbufBytes (s.readReg r).toNat n.toNat

/-- A feed command stays inside the frame (43_crc.md rule R187). -/
def Feed.inFrame (s : State) : Feed → Prop
  | .crci _ => True
  | .crcr _ => True
  | .crcm r n => (s.readReg r).toNat + n.toNat ≤ s.flen.toNat

/-- FBUF holds a byte sequence from address 0 and FLEN is its length (20_memory.md rule R69). -/
def HoldsBytes (s : State) (bytes : List Byte) : Prop :=
  s.flen.toNat = bytes.length ∧ ∀ k b, bytes[k]? = some b → s.fbufByte k = b

/-- The LBS fields stand in FBUF from address a on, big-endian (20_memory.md rule R70). -/
def LbsFields.StandAt (l : LbsFields) (s : State) (a : Nat) : Prop :=
  s.memRead a 2 = l.mcc.toNat ∧ s.fbufByte (a + 2) = l.mnc ∧ s.memRead (a + 3) 2 = l.lac.toNat
    ∧ s.memRead (a + 5) 2 = l.cellHigh.toNat ∧ s.fbufByte (a + 7) = l.cellLow

end Sys2Proof.Machine
end

