-- ==== Sys2Proof/Certificates/Slice0/Obligations.lean ====
section
/-! DEFINITION. The statements for the provers, in the order of OBLIGATIONS.json. Each docstring names the rule of the
spec it formalises. -/

open Sys2Proof Sys2Proof.Machine

/-! ## Encoding -/

/-- 30_encoding.md rules R92 to R98: decoding the word of a command gives the command, for every command and every value
of its operands that the encoding admits. -/
def Obligations.DecodeOfEncodeGivesTheCommand : Prop :=
  ∀ i : Instr, i.WellFormed → decode (encode i) = .ok i

/-- 30_encoding.md rules R96, R98: a legal word is exactly the word of the command it decodes to, so FAULT_CMD, which the
model records as `encode` of the command (log entry 7), is the word the host wrote. -/
def Obligations.LegalWordIsEncodingOfItsCommand : Prop :=
  ∀ (w : Word) (i : Instr), decode w = .ok i → i.WellFormed ∧ encode i = w

/-- 30_encoding.md rule R96: a word encodes the command of a row exactly when `w & mask = match`, and at most one row
matches. The twenty matches and masks stand here as the rule's table gives them. -/
def Obligations.WordEncodesRowWhenMaskMatches : Prop :=
  (∀ (op : Opcode) (w : Word), (∃ i, decode w = .ok i ∧ i.opcode = op) ↔ w &&& op.mask = op.pattern)
    ∧ (∀ (a b : Opcode) (w : Word), w &&& a.mask = a.pattern → w &&& b.mask = b.pattern → a = b)
    ∧ Opcode.all.map (fun op => (op.pattern, op.mask)) =
      [(0x10000000, 0xFFFF0000), (0x11000000, 0xFFFF0000), (0x12000000, 0xFFE30000), (0x13000000, 0xFFFF0000),
       (0x14000000, 0xFF1FFFFF), (0x18000000, 0xFF1FFFFF), (0x19000000, 0xFF1FFFFF), (0x1A000000, 0xFF1FFFFF)]
      ++ [(0x20000000, 0xFF1F0000), (0x21000000, 0xFF03F000), (0x22000000, 0xFF007FC0), (0x23000000, 0xFF007FFF),
       (0x24000000, 0xFF1FFFFF), (0x25000000, 0xFF1FFFFF)]
      ++ [(0x30000000, 0xFFFFFFFF), (0x31000000, 0xFFFFFF00), (0x32000000, 0xFFE3FFFF), (0x33000000, 0xFFE30000),
       (0x34000000, 0xFF1FFFFF), (0x38000000, 0xFFE07FFF)]

/-- 30_encoding.md rule R102: words of its table decode to the commands beside them, one at least of each family. -/
def Obligations.ExampleWordsDecodeToTheirCommands : Prop :=
  decode 0x1200000D = .ok (.skipr 0 13) ∧ decode 0x1A800000 = .ok (.rdu32 4) ∧ decode 0x20A00013 = .ok (.movi 5 0x13)
    ∧ decode 0x21DC0240 = .ok (.xbf 6 7 0 10) ∧ decode 0x2293800A = .ok (.xsgn 4 4 7 10)
    ∧ decode 0x23570000 = .ok (.xcell 2 5 6) ∧ decode 0x3310000C = .ok (.crcm 4 12) ∧ decode 0x38058000 = .ok (.ack 1 3)

/-- 30_encoding.md rules R100, R101: what the assembler accepts, pseudo-instructions among it, are commands a word can
encode. -/
def Obligations.AssembledLinesAreEncodable : Prop :=
  ∀ (line : List Char) (is : List Instr), assembleLine line = .ok is → ∀ i ∈ is, decode (encode i) = .ok i

/-! ## The cursor and read commands -/

/-- 41_cursor.md rule R120: SEEK. -/
def Obligations.SeekSetsCursorOrRaisesBounds : Prop :=
  ∀ (imm : Half) (s : State),
    (encode (.seek imm)).toNat = 0x10000000 + imm.toNat
    ∧ (imm.toNat ≤ s.flen.toNat →
        ∃ t, exec (.seek imm) s = .next t ∧ t.cur.toNat = imm.toNat ∧ OnlyCursor s t)
    ∧ (s.flen.toNat < imm.toNat → RaisesIfNonePending (.seek imm) 1 imm.toNat s)

/-- 41_cursor.md rule R122: SKIP, and SKIP 0 as the command with no effect. -/
def Obligations.SkipAdvancesCursorOrRaisesBounds : Prop :=
  ∀ (imm : Half) (s : State),
    (encode (.skip imm)).toNat = 0x11000000 + imm.toNat
    ∧ (s.cur.toNat + imm.toNat ≤ s.flen.toNat →
        ∃ t, exec (.skip imm) s = .next t ∧ t.cur.toNat = s.cur.toNat + imm.toNat ∧ OnlyCursor s t)
    ∧ (s.flen.toNat < s.cur.toNat + imm.toNat → RaisesIfNonePending (.skip imm) 1 (s.cur.toNat + imm.toNat) s)
    ∧ (s.cur.toNat ≤ s.flen.toNat → exec (.skip 0) s = .next s)

/-- 41_cursor.md rule R124: SKIPR, NEGSKIP before BOUNDS, on exact numbers. -/
def Obligations.SkiprSkipsTheDifferenceOrRaises : Prop :=
  ∀ (rs1 : RegName) (imm : Half) (s : State),
    (encode (.skipr rs1 imm)).toNat = 0x12000000 + rs1.val * 2 ^ 18 + imm.toNat
    ∧ ((s.readReg rs1).toNat < imm.toNat →
        RaisesIfNonePending (.skipr rs1 imm) 2 ((s.readReg rs1).toNat - imm.toNat) s)
    ∧ (∀ n : Nat, (s.readReg rs1).toNat = imm.toNat + n →
        (s.cur.toNat + n ≤ s.flen.toNat →
          ∃ t, exec (.skipr rs1 imm) s = .next t ∧ t.cur.toNat = s.cur.toNat + n ∧ OnlyCursor s t)
        ∧ (s.flen.toNat < s.cur.toNat + n → RaisesIfNonePending (.skipr rs1 imm) 1 (s.cur.toNat + n) s))

/-- 41_cursor.md rule R126: TAIL leaves at most imm bytes after the cursor and never moves it backwards. -/
def Obligations.TailLeavesTheLastBytes : Prop :=
  ∀ (imm : Half) (s : State),
    (encode (.tail imm)).toNat = 0x13000000 + imm.toNat
    ∧ (s.cur.toNat + imm.toNat < s.flen.toNat →
        ∃ t, exec (.tail imm) s = .next t ∧ t.cur.toNat + imm.toNat = s.flen.toNat ∧ s.cur.toNat < t.cur.toNat
          ∧ OnlyCursor s t)
    ∧ (s.flen.toNat ≤ s.cur.toNat + imm.toNat → exec (.tail imm) s = .next s)

/-- 41_cursor.md rule R128: AVAIL. The value is stated where CUR <= FLEN (10_state.md rule R42), which every step keeps. -/
def Obligations.AvailReadsTheBytesLeft : Prop :=
  ∀ (rd : RegName) (s : State),
    (encode (.avail rd)).toNat = 0x14000000 + rd.val * 2 ^ 21
    ∧ ∃ t, exec (.avail rd) s = .next t ∧ OnlyFieldReg rd s t
      ∧ (s.cur.toNat ≤ s.flen.toNat → (t.readReg rd).toNat + s.cur.toNat = s.flen.toNat)

/-- 41_cursor.md rule R130: RDU8. -/
def Obligations.Rdu8ReadsOneByteAtTheCursor : Prop :=
  ∀ (rd : RegName) (s : State),
    (encode (.rdu8 rd)).toNat = 0x18000000 + rd.val * 2 ^ 21
    ∧ (s.cur.toNat + 1 ≤ s.flen.toNat →
        ∃ t, exec (.rdu8 rd) s = .next t ∧ (t.readReg rd).toNat = (s.fbufByte s.cur.toNat).toNat
          ∧ t.cur.toNat = s.cur.toNat + 1 ∧ OnlyFieldRegAndCursor rd s t)
    ∧ (s.flen.toNat < s.cur.toNat + 1 → RaisesIfNonePending (.rdu8 rd) 1 (s.cur.toNat + 1) s)

/-- 41_cursor.md rule R132: RDU16, the byte at the cursor is the high byte. -/
def Obligations.Rdu16ReadsTwoBytesBigEndian : Prop :=
  ∀ (rd : RegName) (s : State),
    (encode (.rdu16 rd)).toNat = 0x19000000 + rd.val * 2 ^ 21
    ∧ (s.cur.toNat + 2 ≤ s.flen.toNat →
        ∃ t, exec (.rdu16 rd) s = .next t
          ∧ (t.readReg rd).toNat = (s.fbufByte s.cur.toNat).toNat * 2 ^ 8 + (s.fbufByte (s.cur.toNat + 1)).toNat
          ∧ t.cur.toNat = s.cur.toNat + 2 ∧ OnlyFieldRegAndCursor rd s t)
    ∧ (s.flen.toNat < s.cur.toNat + 2 → RaisesIfNonePending (.rdu16 rd) 1 (s.cur.toNat + 2) s)

/-- 41_cursor.md rule R134: RDU32, the byte at the cursor is the highest byte. -/
def Obligations.Rdu32ReadsFourBytesBigEndian : Prop :=
  ∀ (rd : RegName) (s : State),
    (encode (.rdu32 rd)).toNat = 0x1A000000 + rd.val * 2 ^ 21
    ∧ (s.cur.toNat + 4 ≤ s.flen.toNat →
        ∃ t, exec (.rdu32 rd) s = .next t
          ∧ (t.readReg rd).toNat = (s.fbufByte s.cur.toNat).toNat * 2 ^ 24
              + (s.fbufByte (s.cur.toNat + 1)).toNat * 2 ^ 16 + (s.fbufByte (s.cur.toNat + 2)).toNat * 2 ^ 8
              + (s.fbufByte (s.cur.toNat + 3)).toNat
          ∧ t.cur.toNat = s.cur.toNat + 4 ∧ OnlyFieldRegAndCursor rd s t)
    ∧ (s.flen.toNat < s.cur.toNat + 4 → RaisesIfNonePending (.rdu32 rd) 1 (s.cur.toNat + 4) s)

/-- 00_scope.md rule R9 and 20_memory.md rule R61: MemRead(a, n) is the sum over k of FBUF[a+k] * 2^(8*(n-1-k)). -/
def Obligations.MemReadIsTheBigEndianSum : Prop :=
  ∀ (s : State) (a n : Nat),
    s.memRead a n = ((List.range n).map fun k => (s.fbufByte (a + k)).toNat * 2 ^ (8 * (n - 1 - k))).sum

/-! ## The extraction commands -/

/-- 42_extract.md rule R150: MOVI. -/
def Obligations.MoviLoadsTheConstant : Prop :=
  ∀ (rd : RegName) (imm : Half) (s : State),
    (encode (.movi rd imm)).toNat = 0x20000000 + rd.val * 2 ^ 21 + imm.toNat
    ∧ ∃ t, exec (.movi rd imm) s = .next t ∧ (t.readReg rd).toNat = imm.toNat ∧ OnlyFieldReg rd s t

/-- 42_extract.md rule R152: XBF, bit by bit; bits at and above the width, and source bits above 63, are 0. -/
def Obligations.XbfExtractsTheBitField : Prop :=
  ∀ (rd rs1 : RegName) (pos : BitVec 6) (width : Nat) (s : State), 1 ≤ width → width ≤ 64 →
    (encode (.xbf rd rs1 pos width)).toNat
        = 0x21000000 + rd.val * 2 ^ 21 + rs1.val * 2 ^ 18 + (width - 1) * 2 ^ 6 + pos.toNat
    ∧ MustBeZero 0x21 12 6
    ∧ ∃ t, exec (.xbf rd rs1 pos width) s = .next t ∧ OnlyFieldReg rd s t
      ∧ (∀ j, (t.readReg rd).getLsbD j = (decide (j < width) && (s.readReg rs1).getLsbD (pos.toNat + j)))

/-- 42_extract.md rule R155: XSGN, as the signed integer the result stands for. -/
def Obligations.XsgnAppliesTheHemisphereSign : Prop :=
  ∀ (rd rs1 rs2 : RegName) (pos : BitVec 6) (s : State),
    (encode (.xsgn rd rs1 rs2 pos)).toNat
        = 0x22000000 + rd.val * 2 ^ 21 + rs1.val * 2 ^ 18 + rs2.val * 2 ^ 15 + pos.toNat
    ∧ MustBeZero 0x22 6 9
    ∧ ∃ t, exec (.xsgn rd rs1 rs2 pos) s = .next t ∧ OnlyFieldReg rd s t
      ∧ (t.readReg rd).toInt =
          if (s.readReg rs2).getLsbD pos.toNat then (((s.readReg rs1).toNat % 2 ^ 32 : Nat) : Int)
          else -(((s.readReg rs1).toNat % 2 ^ 32 : Nat) : Int)

/-- 42_extract.md rule R158: the sign law over the four quadrants, for one raw magnitude m taken as a latitude and as a
longitude. Only bits 10 and 11 of the flags count. LAT and LON are the pseudo-instructions of 30_encoding.md rule R101. -/
def Obligations.HemisphereSignLawOverFourQuadrants : Prop :=
  ∀ (fm ff d e : RegName) (s : State) (m : Nat), m = (s.readReg fm).toNat % 2 ^ 32 →
    ∃ t u, execAll (Pseudo.lat d fm ff).expand s = .next t ∧ execAll (Pseudo.lon e fm ff).expand s = .next u
      ∧ ((t.readReg d).toInt, (u.readReg e).toInt) =
        match (s.readReg ff).getLsbD 11, (s.readReg ff).getLsbD 10 with
        | true, true => ((m : Int), (m : Int))
        | false, true => ((m : Int), -(m : Int))
        | true, false => (-(m : Int), (m : Int))
        | false, false => (-(m : Int), -(m : Int))

/-- 42_extract.md rule R159: XCELL in both modes. The compat value is the parameter of 00_scope.md rule R6, a free value
(log entry 5). -/
def Obligations.XcellCombinesTheTwoParts : Prop :=
  ∀ (rd rs1 rs2 : RegName) (s : State),
    (encode (.xcell rd rs1 rs2)).toNat = 0x23000000 + rd.val * 2 ^ 21 + rs1.val * 2 ^ 18 + rs2.val * 2 ^ 15
    ∧ ∃ t, exec (.xcell rd rs1 rs2) s = .next t ∧ OnlyFieldReg rd s t
      ∧ (s.ctrl.cellidMode = true →
          (t.readReg rd).toNat = (s.readReg rs1).toNat % 2 ^ 16 * 2 ^ 8 + (s.readReg rs2).toNat % 2 ^ 8)
      ∧ (s.ctrl.cellidMode = false →
          t.readReg rd = Config.cellidCompat (BitVec.ofNat 16 (s.readReg rs1).toNat) (BitVec.ofNat 8 (s.readReg rs2).toNat))

/-- 42_extract.md rule R163: XTIME, field by field. -/
def Obligations.XtimeUnpacksTheSixTimeBytes : Prop :=
  ∀ (rd : RegName) (s : State),
    (encode (.xtime rd)).toNat = 0x24000000 + rd.val * 2 ^ 21
    ∧ (s.cur.toNat + 6 ≤ s.flen.toNat →
        ∃ t, exec (.xtime rd) s = .next t ∧ t.cur.toNat = s.cur.toNat + 6 ∧ OnlyFieldRegAndCursor rd s t
          ∧ (t.readReg rd).toNat / 2 ^ 40 = 2000 + (s.fbufByte s.cur.toNat).toNat
          ∧ (∀ k, 1 ≤ k → k ≤ 5 →
              (t.readReg rd).toNat / 2 ^ (8 * (5 - k)) % 2 ^ 8 = (s.fbufByte (s.cur.toNat + k)).toNat))
    ∧ (s.flen.toNat < s.cur.toNat + 6 → RaisesIfNonePending (.xtime rd) 1 (s.cur.toNat + 6) s)

/-- 42_extract.md rules R167, R168: XIMEI, digit by digit, and NONDEC set exactly when a digit is above 9, never cleared. -/
def Obligations.XimeiUnpacksFifteenDigits : Prop :=
  ∀ (rd : RegName) (s : State),
    (encode (.ximei rd)).toNat = 0x25000000 + rd.val * 2 ^ 21
    ∧ (s.cur.toNat + 8 ≤ s.flen.toNat →
        ∃ t, exec (.ximei rd) s = .next t ∧ t.cur.toNat = s.cur.toNat + 8
          ∧ (t.readReg rd).toNat < 2 ^ 60
          ∧ (∀ k, k < 15 → (t.readReg rd).toNat / 2 ^ (4 * (14 - k)) % 16 = identifierNibble s s.cur.toNat k)
          ∧ (t.status.nondec = true ↔
              s.status.nondec = true ∨ ∃ k, k < 15 ∧ 9 < identifierNibble s s.cur.toNat k)
          ∧ SameFieldRegsBut rd s t ∧ t.crc = s.crc ∧ t.status.ackv = s.status.ackv ∧ SameAbuf s t
          ∧ SameOutsideCommands s t)
    ∧ (s.flen.toNat < s.cur.toNat + 8 → RaisesIfNonePending (.ximei rd) 1 (s.cur.toNat + 8) s)

/-! ## The CRC commands and the acknowledgment -/

/-- 43_crc.md rule R184: CRCINIT, for every CRC_CFG. -/
def Obligations.CrcinitLoadsTheInitialValue : Prop :=
  ∀ s : State,
    (∀ w : Word, decode w = .ok .crcinit ↔ w = 0x30000000)
    ∧ ∃ t, exec .crcinit s = .next t ∧ t.crc = s.crcCfg.init ∧ OnlyCrc s t

/-- 43_crc.md rules R180, R185, R186: CRCI and CRCR feed one byte, for every CRC_CFG, and CRCR is CRCI of the register's
low byte. CrcUpdate is `crcUpdate`, written from rule R180. -/
def Obligations.CrciAndCrcrFeedOneByte : Prop :=
  ∀ s : State,
    MustBeZero 0x31 8 16
    ∧ (∀ b : Byte, (encode (.crci b)).toNat = 0x31000000 + b.toNat
      ∧ ∃ t, exec (.crci b) s = .next t ∧ t.crc = crcUpdate s.crcCfg s.crc b ∧ OnlyCrc s t)
    ∧ (∀ rs1 : RegName, (encode (.crcr rs1)).toNat = 0x32000000 + rs1.val * 2 ^ 18
      ∧ ∃ t, exec (.crcr rs1) s = .next t ∧ OnlyCrc s t
        ∧ t.crc = crcUpdate s.crcCfg s.crc (BitVec.ofNat 8 (s.readReg rs1).toNat)
        ∧ exec (.crci (BitVec.ofNat 8 (s.readReg rs1).toNat)) s = .next t)

/-- 43_crc.md rule R187: CRCM feeds FBUF[a], ..., FBUF[a+n-1], a the full 64-bit register value, or raises BOUNDS and
leaves CRC alone. -/
def Obligations.CrcmFeedsTheRangeOrRaisesBounds : Prop :=
  ∀ (rs1 : RegName) (count : Half) (s : State),
    (encode (.crcm rs1 count)).toNat = 0x33000000 + rs1.val * 2 ^ 18 + count.toNat
    ∧ ((s.readReg rs1).toNat + count.toNat ≤ s.flen.toNat →
        ∃ t, exec (.crcm rs1 count) s = .next t ∧ OnlyCrc s t
          ∧ t.crc = ((List.range count.toNat).map fun k => s.fbufByte ((s.readReg rs1).toNat + k)).foldl
              (crcUpdate s.crcCfg) s.crc)
    ∧ (s.flen.toNat < (s.readReg rs1).toNat + count.toNat →
        RaisesIfNonePending (.crcm rs1 count) 1 ((s.readReg rs1).toNat + count.toNat) s)

/-- 43_crc.md rules R181, R188: CRCRD delivers CrcFinal(CRC), bit by bit, for every CRC_CFG; CRC does not change. -/
def Obligations.CrcrdReadsTheFinalValue : Prop :=
  ∀ (rd : RegName) (s : State),
    (encode (.crcrd rd)).toNat = 0x34000000 + rd.val * 2 ^ 21
    ∧ ∃ t, exec (.crcrd rd) s = .next t ∧ OnlyFieldReg rd s t
      ∧ (∀ j, j < 16 → (t.readReg rd).getLsbD j =
          ((if s.crcCfg.refout then s.crc.getLsbD (15 - j) else s.crc.getLsbD j) ^^ s.crcCfg.xorout.getLsbD j))
      ∧ (∀ j, 16 ≤ j → (t.readReg rd).getLsbD j = false)

/-- 43_crc.md rules R190, R191: ACK builds the ten bytes from the type and the index, sets ACKV, and leaves CRC alone, for
every CRC_CFG. -/
def Obligations.AckBuildsTheAcknowledgment : Prop :=
  ∀ (rs1 rs2 : RegName) (s : State) (ty hi lo : Byte), ty.toNat = (s.readReg rs1).toNat % 2 ^ 8 →
    hi.toNat = (s.readReg rs2).toNat / 2 ^ 8 % 2 ^ 8 → lo.toNat = (s.readReg rs2).toNat % 2 ^ 8 →
    (encode (.ack rs1 rs2)).toNat = 0x38000000 + rs1.val * 2 ^ 18 + rs2.val * 2 ^ 15 ∧ MustBeZero 0x38 21 3
    ∧ ∃ (t : State) (chi clo : Byte), exec (.ack rs1 rs2) s = .next t
      ∧ (List.range 10).map t.abufByte = [0x78, 0x78, 0x05, ty, hi, lo, chi, clo, 0x0D, 0x0A]
      ∧ chi.toNat * 2 ^ 8 + clo.toNat = (crc16 s.crcCfg [0x05, ty, hi, lo]).toNat
      ∧ t.status.ackv = true ∧ t.status.nondec = s.status.nondec
      ∧ SameFieldRegs s t ∧ t.cur = s.cur ∧ t.crc = s.crc ∧ SameOutsideCommands s t

/-- 43_crc.md rule R182: after CRCINIT and any sequence of CRCI, CRCR and CRCM commands inside the frame, CRCRD returns
Crc16 of the bytes fed, in the order fed, for every CRC_CFG. It runs the commands by `exec` alone: on the machine a pending fault
discards them (60_exceptions.md rule R215), so for a state with FAULT = 1 it is the model's choice (log entry 9). -/
def Obligations.AccumulatorComputesCrc16OfTheBytesFed : Prop :=
  ∀ (feeds : List Feed) (rd : RegName) (s : State), (∀ x ∈ feeds, x.inFrame s) →
    ∃ t, execAll (.crcinit :: feeds.map Feed.instr ++ [.crcrd rd]) s = .next t
      ∧ (t.readReg rd).toNat = (crc16 s.crcCfg (feeds.flatMap (Feed.bytes s))).toNat

/-- 43_crc.md rule R183: under the default instance Crc16 equals the reflected form, on every byte sequence, and both give
0x906E for the ASCII bytes of 123456789. -/
def Obligations.DefaultCrc16EqualsReflectedForm : Prop :=
  (∀ bytes : List Byte, crc16 CrcCfg.x25 bytes = crc16Reflected bytes)
    ∧ crc16 CrcCfg.x25 [0x31, 0x32, 0x33, 0x34, 0x35, 0x36, 0x37, 0x38, 0x39] = 0x906E

/-- 43_crc.md rule R180, for every CRC_CFG: CrcUpdate is the recurrence the rule writes, on numbers. b' is the byte fed,
with bit i moved to bit 7 - i under refin; d 0, ..., d 8 are the values c takes, divided by 0x1021 bit by bit, most
significant bit first. So with refin the update of b is the update without refin of b reversed. It follows that the update
is linear over exclusive-or in the state and the byte together, as a division by a polynomial over GF(2) is, and that the
zero state fed the zero byte stays zero (95_test_vectors.md V88). -/
def Obligations.CrcUpdateIsLinearOverXor : Prop :=
  ∀ cfg : CrcCfg,
    (∀ (c : Half) (b b' : Byte) (d : Nat → Nat),
      (∀ i, i < 8 → b'.getLsbD i = b.getLsbD (if cfg.refin then 7 - i else i)) →
      d 0 = c.toNat ^^^ b'.toNat * 2 ^ 8 →
      (∀ k, k < 8 → d (k + 1) =
        if d k / 2 ^ 15 % 2 = 1 then (d k * 2 ^^^ 0x1021) % 2 ^ 16 else d k * 2 % 2 ^ 16) →
      (crcUpdate cfg c b).toNat = d 8)
    ∧ (∀ (c : Half) (b b' : Byte), (∀ i, i < 8 → b'.getLsbD (7 - i) = b.getLsbD i) →
      crcUpdate { cfg with refin := true } c b = crcUpdate { cfg with refin := false } c b')
    ∧ (∀ (c d : Half) (a b : Byte),
      crcUpdate cfg (c ^^^ d) (a ^^^ b) = crcUpdate cfg c a ^^^ crcUpdate cfg d b)
    ∧ crcUpdate cfg 0 0 = 0

/-! ## What every command does, and what none does -/

/-- 93_implementation_defined.md part 1: no item is 'refuse', every word has a meaning. Every command answers a next state
on every state. -/
def Obligations.EveryCommandAnswersNext : Prop :=
  ∀ (i : Instr) (s : State), ∃ t, exec i s = .next t

/-- 00_scope.md rule R10, 60_exceptions.md rules R211, R214, R218: a command that raises a fault changes nothing but the
record, and only the commands the table names raise: BOUNDS from nine of them, NEGSKIP from SKIPR. -/
def Obligations.FaultsArePreciseAndOnlyFromTheTable : Prop :=
  ∀ (i : Instr) (s t : State), exec i s = .next t → s.status.fault = false → t.status.fault = true →
    ∃ info : Int, (FaultRecorded 1 (encode i) info s t
        ∧ i.opcode ∈ [.seek, .skip, .skipr, .rdu8, .rdu16, .rdu32, .xtime, .ximei, .crcm])
      ∨ (FaultRecorded 2 (encode i) info s t ∧ i.opcode = .skipr)

/-- 60_exceptions.md rule R214: while a fault is pending nothing is recorded, whatever command `exec` is given. This is
about `exec` alone and is the model's choice (log entry 9): on the machine a pending fault discards the command before
`exec` is reached (rules R215, R219), which PendingFaultDiscardsCommands and OnlyTheHostEndsAPendingFault say of the step. -/
def Obligations.NoCommandTouchesAPendingRecord : Prop :=
  ∀ (i : Instr) (s t : State), exec i s = .next t → s.status.fault = true →
    t.status.fault = true ∧ t.status.cause = s.status.cause ∧ t.faultCmd = s.faultCmd ∧ t.faultInfo = s.faultInfo

/-- 10_state.md rule R38, 70_reset_and_hazards.md rule R241: commands see FBUF only below FLEN. Two states that differ
only in FBUF bytes at and above FLEN give, under any command, states that differ only so. -/
def Obligations.CommandsSeeFbufOnlyBelowFlen : Prop :=
  ∀ (i : Instr) (s t : State) (m : Memory) (e : Nat),
    (∀ a, a < s.flen.toNat → (s.withFbuf m e).fbufByte a = s.fbufByte a) → exec i s = .next t →
    exec i (s.withFbuf m e) = .next (t.withFbuf m e)

/-! ## The step and the host interface -/

/-- 10_state.md rules R25, R37, 30_encoding.md rule R98: when the next bus event writes a legal word to CMD and no fault is
pending, the step is that command's execution, after the event is taken from the queue (log entry 1: the queue). -/
def Obligations.StepRunsTheDecodedCommand : Prop :=
  ∀ (s : State) (a : HostAddr) (w : Word) (i : Instr) (rest : List BusEvent),
    s.busQueue = .write a w :: rest → a.toNat / 4 = 2 → s.inReset = false → s.status.fault = false →
    decode w = .ok i → step s = exec i (s.withQueue rest)

/-- 60_exceptions.md rule R215: while a fault is pending, a write of any word to CMD has no effect at all; the step only
takes the event (log entry 1). -/
def Obligations.PendingFaultDiscardsCommands : Prop :=
  ∀ (s : State) (a : HostAddr) (w : Word) (rest : List BusEvent),
    s.busQueue = .write a w :: rest → a.toNat / 4 = 2 → s.inReset = false → s.status.fault = true →
    step s = .next (s.withQueue rest)

/-- 30_encoding.md rule R97, 60_exceptions.md rules R211, R214: a word that no row selects records ILLEGAL with the word and
0, and changes no other state. -/
def Obligations.IllegalWordRecordsIllegal : Prop :=
  ∀ (s : State) (a : HostAddr) (w : Word) (rest : List BusEvent),
    s.busQueue = .write a w :: rest → a.toNat / 4 = 2 → s.inReset = false → s.status.fault = false →
    (∀ op : Opcode, w &&& op.mask ≠ op.pattern) →
    ∃ t, step s = .next t ∧ FaultRecorded 3 w 0 (s.withQueue rest) t

/-- 10_state.md rule R42: every step keeps the invariants FLEN <= 512, CUR <= FLEN, CAUSE = 0 exactly when FAULT = 0, CAUSE
one of 1 to 4 when FAULT = 1, and the canonical form of FBUF's list, which is the model's own (log entry 3). -/
def Obligations.EveryStepKeepsTheInvariants : Prop :=
  ∀ s t : State, s.Inv → step s = .next t → t.Inv

/-- 10_state.md rules R42, R43: the state after reset meets the invariants, the canonical form of log entry 3 among
them. -/
def Obligations.ResetMeetsTheInvariants : Prop := State.reset.Inv

/-- 70_reset_and_hazards.md rule R240 and 93_implementation_defined.md I20: a step stops exactly when the next event is a
host access while the reset input is asserted; otherwise it answers a next state. How the reset input and the accesses
reach the machine is the model's choice (log entries 1, 6). -/
def Obligations.StepStopsExactlyOnAnAccessInReset : Prop :=
  ∀ s : State,
    (step s = .fault .accessInReset ∧ s.inReset = true ∧ ∃ e rest, s.busQueue = e :: rest ∧ e.isAccess = true)
      ∨ ((∃ t, step s = .next t) ∧ (s.inReset = false ∨ ∀ e rest, s.busQueue = e :: rest → e.isAccess = false))

/-- 10_state.md rule R31, 60_exceptions.md rule R219: a pending fault ends only by a host write of 1 to STATUS bit 0 or by a
reset (log entry 6: how a reset reaches the machine), and FAULT_CMD and FAULT_INFO stay until a next fault is recorded. -/
def Obligations.OnlyTheHostEndsAPendingFault : Prop :=
  ∀ s t : State, step s = .next t → s.status.fault = true →
    (t.status.fault = true ∧ t.status.cause = s.status.cause ∧ t.faultCmd = s.faultCmd ∧ t.faultInfo = s.faultInfo)
    ∨ (∃ (a : HostAddr) (w : Word) (rest : List BusEvent), s.busQueue = .write a w :: rest ∧ a.toNat / 4 = 1
        ∧ w.getLsbD 0 = true ∧ t.status.fault = false ∧ t.status.cause = 0
        ∧ t.faultCmd = s.faultCmd ∧ t.faultInfo = s.faultInfo)
    ∨ (s.inReset = true ∧ ∃ rest, s.busQueue = .resetRelease :: rest)

/-- 10_state.md rules R32, R33: in a step NONDEC rises only by an XIMEI and ACKV only by an ACK, and each falls only by a
host write of 1 to its STATUS bit or by a reset (log entries 1, 6). -/
def Obligations.NondecAndAckvChangeOnlyAsTheRulesSay : Prop :=
  ∀ s t : State, step s = .next t →
    (t.status.nondec ≠ s.status.nondec →
      ∃ rest, (s.status.nondec = false ∧ ∃ a w rd, s.busQueue = .write a w :: rest ∧ a.toNat / 4 = 2 ∧ decode w = .ok (.ximei rd))
        ∨ (s.status.nondec = true ∧ ∃ a w, s.busQueue = .write a w :: rest ∧ a.toNat / 4 = 1 ∧ w.getLsbD 8 = true)
        ∨ (s.inReset = true ∧ s.busQueue = .resetRelease :: rest))
    ∧ (t.status.ackv ≠ s.status.ackv →
      ∃ rest, (s.status.ackv = false ∧ ∃ a w r q, s.busQueue = .write a w :: rest ∧ a.toNat / 4 = 2 ∧ decode w = .ok (.ack r q))
        ∨ (s.status.ackv = true ∧ ∃ a w, s.busQueue = .write a w :: rest ∧ a.toNat / 4 = 1 ∧ w.getLsbD 9 = true)
        ∨ (s.inReset = true ∧ s.busQueue = .resetRelease :: rest))

/-- 10_state.md rule R38, 20_memory.md rules R60, R66: no command writes FBUF. A byte of FBUF changes in a step only by a
host write of the window word that holds it, or by a reset (log entries 3, 6). -/
def Obligations.FbufChangesOnlyByWindowWrites : Prop :=
  ∀ (s t : State) (b : Nat), step s = .next t → t.fbufByte b ≠ s.fbufByte b →
    (∃ (a : HostAddr) (w : Word) (rest : List BusEvent), s.busQueue = .write a w :: rest
        ∧ a.toNat / 4 = 256 + b / 4 ∧ b < 512 ∧ (t.fbufByte b).toNat = w.toNat / 2 ^ (8 * (b % 4)) % 2 ^ 8)
    ∨ (s.inReset = true ∧ ∃ rest, s.busQueue = .resetRelease :: rest)

/-- 00_scope.md rule R6: CRC_CFG is fixed for an instance (log entry 4: the model holds it in State): no step changes it. -/
def Obligations.NoStepChangesTheInstanceParameters : Prop :=
  ∀ s t : State, step s = .next t → t.crcCfg = s.crcCfg

/-- 10_state.md rule R43, 70_reset_and_hazards.md rule R240: releasing reset gives every register its reset value, whatever
the state was, the ID register reads its constant and the interrupt line is low; and so it is in the reset state. FBUF's
bytes are unspecified and nothing is said of them. That a reset is an event is the model's choice (log entry 6). -/
def Obligations.ReleasingResetGivesTheResetValues : Prop :=
  (∀ (s : State) (rest : List BusEvent), s.busQueue = .resetRelease :: rest → s.inReset = true →
    ∃ t, step s = .next t ∧ (∀ r, t.readReg r = 0) ∧ t.cur = 0 ∧ t.flen = 0 ∧ t.crc = s.crcCfg.init
      ∧ hostRead t 0x000 = 0 ∧ hostRead t 0x004 = 0 ∧ t.faultCmd = 0 ∧ t.faultInfo = 0 ∧ hostRead t 0x020 = 0xC16C0100
      ∧ (∀ k, t.abufByte k = 0) ∧ t.irq = false ∧ t.inReset = false)
  ∧ (∀ r, State.reset.readReg r = 0) ∧ State.reset.cur = 0 ∧ State.reset.flen = 0 ∧ State.reset.crc = 0xFFFF
    ∧ hostRead State.reset 0x000 = 0 ∧ hostRead State.reset 0x004 = 0 ∧ State.reset.faultCmd = 0
    ∧ State.reset.faultInfo = 0 ∧ hostRead State.reset 0x020 = 0xC16C0100 ∧ (∀ k, State.reset.abufByte k = 0)
    ∧ State.reset.irq = false

/-- 10_state.md rule R24: a host write to FLEN. -/
def Obligations.FlenWriteStartsAFrameOrRaisesHostrange : Prop :=
  ∀ (a : HostAddr) (w : Word) (s : State), a.toNat / 4 = 3 →
    (w.toNat ≤ 512 → ∃ t, hostWrite a w s = .next t ∧ t.flen.toNat = w.toNat ∧ t.cur.toNat = 0
        ∧ (hostRead t a).toNat = w.toNat ∧ SameFieldRegs s t ∧ t.crc = s.crc ∧ t.ctrl = s.ctrl ∧ t.crcCfg = s.crcCfg
        ∧ t.status = s.status ∧ t.faultCmd = s.faultCmd ∧ t.faultInfo = s.faultInfo ∧ SameFbuf s t ∧ SameAbuf s t
        ∧ SameHostSide s t)
    ∧ (512 < w.toNat → s.status.fault = false → ∃ t, hostWrite a w s = .next t ∧ FaultRecorded 4 0 w.toNat s t)
    ∧ (512 < w.toNat → s.status.fault = true → hostWrite a w s = .next s)

/-- 10_state.md rule R30: what a read of STATUS returns, and what a write of it clears. IRQ is bit 10 (60_exceptions.md
rule R217). -/
def Obligations.StatusReadsItsFieldsAndClearsOnOnes : Prop :=
  ∀ (a : HostAddr) (w : Word) (s : State), a.toNat / 4 = 1 →
    (∀ j, j < 32 → (hostRead s a).getLsbD j =
      if j = 0 then s.status.fault else if 4 ≤ j ∧ j ≤ 7 then s.status.cause.getLsbD (j - 4)
      else if j = 8 then s.status.nondec else if j = 9 then s.status.ackv
      else if j = 10 then (s.status.fault && s.ctrl.faultIe) else false)
    ∧ ∃ t, hostWrite a w s = .next t
      ∧ t.status.fault = (if w.getLsbD 0 then false else s.status.fault)
      ∧ t.status.cause = (if w.getLsbD 0 then 0 else s.status.cause)
      ∧ t.status.nondec = (if w.getLsbD 8 then false else s.status.nondec)
      ∧ t.status.ackv = (if w.getLsbD 9 then false else s.status.ackv)
      ∧ SameFieldRegs s t ∧ t.cur = s.cur ∧ t.flen = s.flen ∧ t.crc = s.crc ∧ t.ctrl = s.ctrl ∧ t.crcCfg = s.crcCfg
      ∧ t.faultCmd = s.faultCmd ∧ t.faultInfo = s.faultInfo ∧ SameFbuf s t ∧ SameAbuf s t ∧ SameHostSide s t

/-- 10_state.md rule R27: a write of CTRL stores bits 0 and 1 and ignores the reserved bits, which read 0; nothing else
changes. -/
def Obligations.CtrlHoldsItsTwoBits : Prop :=
  ∀ (a : HostAddr) (w : Word) (s : State), a.toNat / 4 = 0 →
    ∃ t, hostWrite a w s = .next t ∧ (hostRead t a).toNat = w.toNat % 4
      ∧ t.ctrl.cellidMode = w.getLsbD 0 ∧ t.ctrl.faultIe = w.getLsbD 1
      ∧ SameFieldRegs s t ∧ t.cur = s.cur ∧ t.flen = s.flen ∧ t.crc = s.crc ∧ t.crcCfg = s.crcCfg ∧ t.status = s.status
      ∧ t.faultCmd = s.faultCmd ∧ t.faultInfo = s.faultInfo ∧ SameFbuf s t ∧ SameAbuf s t ∧ SameHostSide s t

/-- 10_state.md rule R21: the two halves of a field register; a write changes only the half it addresses. -/
def Obligations.FieldRegisterHalvesReadAndWrite : Prop :=
  ∀ (i : RegName) (high : Bool) (a : HostAddr) (w : Word) (s : State),
    a.toNat / 4 = 16 + 2 * i.val + (if high then 1 else 0) →
    (hostRead s a).toNat = (if high then (s.readReg i).toNat / 2 ^ 32 else (s.readReg i).toNat % 2 ^ 32)
    ∧ ∃ t, hostWrite a w s = .next t
      ∧ (t.readReg i).toNat = (if high then w.toNat * 2 ^ 32 + (s.readReg i).toNat % 2 ^ 32
          else (s.readReg i).toNat / 2 ^ 32 * 2 ^ 32 + w.toNat)
      ∧ OnlyFieldReg i s t

/-- 20_memory.md rule R66: the FBUF window, little-endian lanes, whatever FLEN is; a write changes those four bytes and no
register. -/
def Obligations.FbufWindowReadsAndWritesFourBytes : Prop :=
  ∀ (k : Nat) (a : HostAddr) (w : Word) (s : State), k < 128 → a.toNat / 4 = 256 + k →
    (∀ j, j < 4 → (hostRead s a).toNat / 2 ^ (8 * j) % 2 ^ 8 = (s.fbufByte (4 * k + j)).toNat)
    ∧ ∃ t, hostWrite a w s = .next t ∧ hostRead t a = w
      ∧ (∀ j, j < 4 → (t.fbufByte (4 * k + j)).toNat = w.toNat / 2 ^ (8 * j) % 2 ^ 8)
      ∧ (∀ b, (b < 4 * k ∨ 4 * k + 4 ≤ b) → t.fbufByte b = s.fbufByte b)
      ∧ t = { s with fbuf := t.fbuf }

/-- 20_memory.md rule R67: the ABUF window, little-endian lanes, bytes past the tenth 0, writes ignored. -/
def Obligations.AbufWindowReadsAndIgnoresWrites : Prop :=
  ∀ (k : Nat) (a : HostAddr) (w : Word) (s : State), k < 3 → a.toNat / 4 = 192 + k →
    (∀ j, j < 4 → (hostRead s a).toNat / 2 ^ (8 * j) % 2 ^ 8 =
      if h : 4 * k + j < 10 then (s.abuf[4 * k + j]).toNat else 0)
    ∧ hostWrite a w s = .next s

/-- 20_memory.md rules R64, R68: reserved addresses and CMD read 0; a write to a reserved or read-only address (CUR, CRC,
FAULT_CMD, FAULT_INFO, ID) changes nothing. -/
def Obligations.ReservedAndReadOnlyAddresses : Prop :=
  ∀ (a : HostAddr) (w : Word) (s : State),
    ((a.toNat / 4 = 2 ∨ (9 ≤ a.toNat / 4 ∧ a.toNat / 4 ≤ 15) ∨ (32 ≤ a.toNat / 4 ∧ a.toNat / 4 ≤ 191)
        ∨ (195 ≤ a.toNat / 4 ∧ a.toNat / 4 ≤ 255) ∨ 384 ≤ a.toNat / 4) → hostRead s a = 0)
    ∧ (((4 ≤ a.toNat / 4 ∧ a.toNat / 4 ≤ 15) ∨ (32 ≤ a.toNat / 4 ∧ a.toNat / 4 ≤ 255) ∨ 384 ≤ a.toNat / 4) →
        hostWrite a w s = .next s)

/-- 20_memory.md rule R64, 10_state.md rules R23, R26, R34 to R36: what the read-only registers read. -/
def Obligations.ReadOnlyRegistersReadTheirValue : Prop :=
  ∀ (a : HostAddr) (s : State),
    (a.toNat / 4 = 3 → (hostRead s a).toNat = s.flen.toNat) ∧ (a.toNat / 4 = 4 → (hostRead s a).toNat = s.cur.toNat)
    ∧ (a.toNat / 4 = 5 → (hostRead s a).toNat = s.crc.toNat) ∧ (a.toNat / 4 = 6 → hostRead s a = s.faultCmd)
    ∧ (a.toNat / 4 = 7 → hostRead s a = s.faultInfo) ∧ (a.toNat / 4 = 8 → hostRead s a = 0xC16C0100)

/-- 20_memory.md rule R68: a host read has no side effect: the step only takes the event and returns the word (log entry 8
holds the words returned). -/
def Obligations.HostReadsHaveNoSideEffect : Prop :=
  ∀ (s : State) (a : HostAddr) (rest : List BusEvent), s.busQueue = .read a :: rest → s.inReset = false →
    ∃ t, step s = .next t ∧ t.busReads = hostRead s a :: s.busReads ∧ t.busQueue = rest
      ∧ t = { s with busReads := t.busReads, busQueue := t.busQueue }

/-- 20_memory.md rule R65: the block ignores address bits [1:0]: an access acts on the word at A & 0xFFC. -/
def Obligations.AddressBitsOneAndZeroAreIgnored : Prop :=
  ∀ (a : HostAddr) (w : Word) (s : State),
    hostRead s a = hostRead s (a &&& 0xFFC) ∧ hostWrite a w s = hostWrite (a &&& 0xFFC) w s

/-- 70_reset_and_hazards.md rule R245 item 1: the order of an FBUF write and a FLEN write does not matter. The cells of
FBUF come out the same too. -/
def Obligations.FbufAndFlenWritesCommute : Prop :=
  ∀ (a b : HostAddr) (v w : Word) (s : State), a.toNat / 4 = 3 → 256 ≤ b.toNat / 4 → b.toNat / 4 < 384 →
    ∃ t u r, hostWrite a v s = .next t ∧ hostWrite b w t = .next r
      ∧ hostWrite b w s = .next u ∧ hostWrite a v u = .next r

/-! ## Frames -/

/-- 70_reset_and_hazards.md rule R244 steps 2 and 3, 20_memory.md rules R66, R69, 10_state.md rule R24: running the host's
writes of a byte sequence of at most 512 bytes and of its length leaves the bytes in FBUF from address 0, FLEN their
number, CUR 0, and every register but those two as it was. The writes are events of the queue (log entry 1); what stands
in the at most three lanes past the last byte is the host's, `pad` (log entry 16), and FBUF is as before from the fourth
byte past the end on. -/
def Obligations.LoadingAFramePutsItInFbuf : Prop :=
  ∀ (bytes : List Byte) (pad : Byte) (rest : List BusEvent) (s : State), bytes.length ≤ 512 → s.inReset = false →
    s.busQueue = loadFrame pad bytes ++ rest →
    ∃ t, runSteps (loadFrame pad bytes).length s = .next t ∧ HoldsBytes t bytes ∧ t.cur.toNat = 0
      ∧ t.busQueue = rest ∧ SameFieldRegs s t ∧ t.crc = s.crc ∧ t.ctrl = s.ctrl ∧ t.crcCfg = s.crcCfg
      ∧ t.status = s.status ∧ t.faultCmd = s.faultCmd ∧ t.faultInfo = s.faultInfo ∧ SameAbuf s t
      ∧ t.inReset = false ∧ t.epoch = s.epoch ∧ t.busReads = s.busReads
      ∧ (∀ b, bytes.length + 3 ≤ b → t.fbufByte b = s.fbufByte b)

/-- 41_cursor.md rule R127, 20_memory.md rule R69: in a complete frame with at least six bytes left, TAIL 6 and RDU16 read
the frame's index. -/
def Obligations.TailSixThenRdu16ReadsTheIndex : Prop :=
  ∀ (fr : InboundFrame) (rd : RegName) (s : State), fr.length ≤ 255 → HoldsBytes s fr.bytes →
    s.cur.toNat + 6 ≤ s.flen.toNat →
    ∃ t, execAll [.tail 6, .rdu16 rd] s = .next t ∧ (t.readReg rd).toNat = fr.index.toNat
      ∧ t.cur.toNat + 4 = s.flen.toNat ∧ OnlyFieldRegAndCursor rd s t

/-- 20_memory.md rule R70: in a loaded position frame the fields stand, big-endian, at the addresses the rule's table
gives, and the LBS fields of types 0x12 and 0x16 after G - 12 reserved bytes. -/
def Obligations.PositionFieldsStandAtTheirAddresses : Prop :=
  ∀ (fr : InboundFrame) (p : PositionPayload) (s : State), fr.payload = p.bytes → p.wf = true → HoldsBytes s fr.bytes →
    (∀ k, (h : k < 6) → s.fbufByte (4 + k) = p.time[k])
    ∧ (s.fbufByte 10).toNat = p.gpsLength.toNat * 16 + p.satellites.toNat
    ∧ s.memRead 11 4 = p.latitude.toNat ∧ s.memRead 15 4 = p.longitude.toNat ∧ s.fbufByte 19 = p.speed
    ∧ s.memRead 20 2 = p.courseFlags.toNat
    ∧ (∀ l, p.rest = .gpsLbs l → l.StandAt s (22 + (p.gpsLength.toNat - 12)))
    ∧ (∀ n l reserved flags power gsm, p.rest = .gpsLbsStatus n l reserved flags power gsm →
        s.fbufByte (22 + (p.gpsLength.toNat - 12)) = n ∧ l.StandAt s (22 + (p.gpsLength.toNat - 12) + 1)
          ∧ s.fbufByte (22 + (p.gpsLength.toNat - 12) + n.toNat) = flags
          ∧ s.fbufByte (22 + (p.gpsLength.toNat - 12) + n.toNat + 1) = power
          ∧ s.fbufByte (22 + (p.gpsLength.toNat - 12) + n.toNat + 2) = gsm)

/-- 20_memory.md rules R69, R71, 42_extract.md rules R167, R168: in a loaded login frame, XIMEI at address 4 reads the
identifier's digits: the low nibble of its first byte, then the high and low nibbles of each later byte. -/
def Obligations.LoginFrameGivesItsFifteenDigits : Prop :=
  ∀ (fr : InboundFrame) (p : LoginPayload) (rd : RegName) (s : State), fr.payload = p.bytes → HoldsBytes s fr.bytes →
    ∃ t, execAll [.seek 4, .ximei rd] s = .next t ∧ t.cur.toNat = 12
      ∧ (t.readReg rd).toNat / 2 ^ 56 = p.identifier[0].toNat % 16
      ∧ (∀ j, (h : j < 7) → (t.readReg rd).toNat / 2 ^ (48 - 8 * j) % 2 ^ 8 = p.identifier[j + 1].toNat)

/-! ## Every host write through the step -/

/-- 20_memory.md rule R75, 60_exceptions.md rule R215: when the next bus event is a host write, of any word to any address,
the step is that write after the event is taken from the queue (log entry 1: the queue), whatever FAULT is; what the write
does is said, address by address, by the statements on `hostWrite`. And host accesses other than CMD work as usual while a
fault is pending: but for a FLEN write out of range, what such a write leaves in every register, buffer and flag outside
STATUS does not depend on STATUS. -/
def Obligations.StepPerformsTheHostWrite : Prop :=
  ∀ (s : State) (a : HostAddr) (w : Word) (rest : List BusEvent), s.busQueue = .write a w :: rest → s.inReset = false →
    step s = hostWrite a w (s.withQueue rest)
    ∧ (a.toNat / 4 ≠ 2 → (a.toNat / 4 = 3 → w.toNat ≤ 512) →
        ∀ st : Status, ∃ t u, step s = .next t ∧ step { s with status := st } = .next u
          ∧ u = { t with status := u.status })
end

