-- ==== Sys2Proof/Laws/Decode.lean ====
section
/-! SUPPORT. What the formats put where, and what a row's mask and match say about the fields of a word
(30_encoding.md rules R92 to R98). -/

namespace Sys2Proof

theorem Opcode.mem_all (op : Opcode) : op ∈ Opcode.all := by cases op <;> decide

/-- Every row's OP value names that row. -/
@[simp] theorem Opcode.ofCode_code (op : Opcode) : Opcode.ofCode op.code = some op := by cases op <;> rfl

/-- No two rows have the same OP value (rule R96). -/
theorem Opcode.code_injective {a b : Opcode} (h : a.code = b.code) : a = b := by
  have := congrArg Opcode.ofCode h
  simpa using this

/-- A row that an OP value names has that OP value. -/
theorem Opcode.code_of_ofCode {c : BitVec 8} {op : Opcode} (h : Opcode.ofCode c = some op) : op.code = c := by
  unfold Opcode.ofCode at h
  apply BitVec.eq_of_toNat_eq
  split at h <;> first
    | (cases h; simp_all [Opcode.code])
    | exact absurd h (by simp)

/-! ## The pieces of a word -/

/-- The pieces into which the formats cut a word, as numbers. -/
def piece (w : Word) (lo len : Nat) : Nat := w.toNat / 2 ^ lo % 2 ^ len

theorem opField_toNat (w : Word) : (opField w).toNat = piece w 24 8 := by
  simp [opField, piece, Nat.shiftRight_eq_div_pow]

theorem rdField_val (w : Word) : (rdField w).val = piece w 21 3 := by
  simp [rdField, piece, Nat.shiftRight_eq_div_pow]

theorem rs1Field_val (w : Word) : (rs1Field w).val = piece w 18 3 := by
  simp [rs1Field, piece, Nat.shiftRight_eq_div_pow]

theorem rs2Field_val (w : Word) : (rs2Field w).val = piece w 15 3 := by
  simp [rs2Field, piece, Nat.shiftRight_eq_div_pow]

theorem imm16Field_toNat (w : Word) : (imm16Field w).toNat = piece w 0 16 := by
  simp [imm16Field, piece]

theorem imm8Field_toNat (w : Word) : (imm8Field w).toNat = piece w 0 8 := by
  simp [imm8Field, piece]

theorem posField_toNat (w : Word) : (posField w).toNat = piece w 0 6 := by
  simp [posField, piece]

theorem widthField_eq (w : Word) : widthField w = piece w 6 6 + 1 := by
  simp [widthField, piece, Nat.shiftRight_eq_div_pow]

/-- A number below 2^32 is the sum of its pieces in their places. -/
theorem eq_sum_of_pieces (a : Nat) (h : a < 4294967296) :
    a = a / 16777216 % 256 * 16777216 + a / 2097152 % 8 * 2097152 + a / 262144 % 8 * 262144
      + a / 65536 % 4 * 65536 + a / 32768 % 2 * 32768 + a / 4096 % 8 * 4096 + a / 256 % 16 * 256
      + a / 64 % 4 * 64 + a % 64 := by
  omega

theorem piece_literal (n lo len : Nat) : piece (BitVec.ofNat 32 n) lo len = n % 2 ^ 32 / 2 ^ lo % 2 ^ len := by
  simp [piece]

/-- Two words are equal when they agree on the nine pieces between the formats' cuts. -/
theorem word_eq_iff_pieces (u w : Word) :
    u = w ↔ piece u 24 8 = piece w 24 8 ∧ piece u 21 3 = piece w 21 3 ∧ piece u 18 3 = piece w 18 3
      ∧ piece u 16 2 = piece w 16 2 ∧ piece u 15 1 = piece w 15 1 ∧ piece u 12 3 = piece w 12 3
      ∧ piece u 8 4 = piece w 8 4 ∧ piece u 6 2 = piece w 6 2 ∧ piece u 0 6 = piece w 0 6 := by
  refine ⟨fun h => by simp [h], fun h => BitVec.eq_of_toNat_eq ?_⟩
  have hu := eq_sum_of_pieces u.toNat u.isLt
  have hw := eq_sum_of_pieces w.toNat w.isLt
  norm_num [piece] at h
  obtain ⟨h1, h2, h3, h4, h5, h6, h7, h8, h9⟩ := h
  rw [hu, hw, h1, h2, h3, h4, h5, h6, h7, h8, h9]

/-- A piece of a masked word is the masked piece. -/
theorem piece_and (u w : Word) (lo len : Nat) : piece (u &&& w) lo len = piece u lo len &&& piece w lo len := by
  simp [piece, Nat.and_div_two_pow, Nat.and_mod_two_pow]

/-- A piece masked with ones is itself. -/
theorem piece_and_ones (w : Word) (lo len : Nat) : piece w lo len &&& (2 ^ len - 1) = piece w lo len := by
  simp [piece]

/-- What a row's mask and match say (rules R95, R96): OP is the row's, and each must-be-0 piece is 0. -/
theorem Opcode.selects_iff (op : Opcode) (w : Word) :
    op.selects w = true ↔
      piece w 24 8 = op.code.toNat
      ∧ (piece op.mask 21 3 = 0 ∨ piece w 21 3 = 0) ∧ (piece op.mask 18 3 = 0 ∨ piece w 18 3 = 0)
      ∧ (piece op.mask 16 2 = 0 ∨ piece w 16 2 = 0) ∧ (piece op.mask 15 1 = 0 ∨ piece w 15 1 = 0)
      ∧ (piece op.mask 12 3 = 0 ∨ piece w 12 3 = 0) ∧ (piece op.mask 8 4 = 0 ∨ piece w 8 4 = 0)
      ∧ (piece op.mask 6 2 = 0 ∨ piece w 6 2 = 0) ∧ (piece op.mask 0 6 = 0 ∨ piece w 0 6 = 0) := by
  have h8 := piece_and_ones w 24 8
  have h21 := piece_and_ones w 21 3
  have h18 := piece_and_ones w 18 3
  have h16 := piece_and_ones w 16 2
  have h15 : piece w 15 1 % 2 = piece w 15 1 := by simp [piece]
  have h12 := piece_and_ones w 12 3
  have h4 := piece_and_ones w 8 4
  have h6 := piece_and_ones w 6 2
  have h0 := piece_and_ones w 0 6
  unfold Opcode.selects
  rw [beq_iff_eq, word_eq_iff_pieces]
  simp only [piece_and]
  norm_num at h8 h21 h18 h16 h12 h4 h6 h0
  cases op <;>
    simp [piece_literal, Opcode.mask, Opcode.pattern, Opcode.code, h8, h21, h18, h16, h15, h12, h4, h6, h0]

/-! ## The pieces of an encoded word -/

theorem piece_ofNat (n lo len : Nat) (h : n < 4294967296) : piece (BitVec.ofNat 32 n) lo len = n / 2 ^ lo % 2 ^ len := by
  simp [piece, Nat.mod_eq_of_lt h]

theorem formatN_pieces (op : Opcode) :
    piece (formatN op) 24 8 = op.code.toNat ∧ ∀ lo len, lo + len ≤ 24 → piece (formatN op) lo len = 0 := by
  have ho := op.code.isLt
  refine ⟨?_, fun lo len h => ?_⟩
  · unfold formatN; rw [piece_ofNat _ _ _ (by omega)]; omega
  · unfold formatN
    rw [piece_ofNat _ _ _ (by omega), show 2 ^ 24 = 2 ^ lo * (2 ^ len * 2 ^ (24 - lo - len)) by
      rw [← pow_add, ← pow_add]; congr 1; omega]
    rw [show op.code.toNat * (2 ^ lo * (2 ^ len * 2 ^ (24 - lo - len)))
      = 2 ^ lo * (2 ^ len * (op.code.toNat * 2 ^ (24 - lo - len))) by ring]
    rw [Nat.mul_div_cancel_left _ (by positivity)]
    exact Nat.mul_mod_right _ _

theorem formatR_pieces (op : Opcode) (d a b : RegName) :
    piece (formatR op d a b) 24 8 = op.code.toNat ∧ piece (formatR op d a b) 21 3 = d.val
      ∧ piece (formatR op d a b) 18 3 = a.val ∧ piece (formatR op d a b) 15 3 = b.val
      ∧ piece (formatR op d a b) 16 2 = b.val / 2 ∧ piece (formatR op d a b) 15 1 = b.val % 2
      ∧ piece (formatR op d a b) 12 3 = 0 ∧ piece (formatR op d a b) 8 4 = 0 ∧ piece (formatR op d a b) 6 2 = 0
      ∧ piece (formatR op d a b) 0 6 = 0 := by
  have ho := op.code.isLt
  have hd := d.isLt
  have ha := a.isLt
  have hb := b.isLt
  unfold formatR
  simp only [piece_ofNat _ _ _ (show op.code.toNat * 2 ^ 24 + d.val * 2 ^ 21 + a.val * 2 ^ 18 + b.val * 2 ^ 15
    < 4294967296 by omega)]
  norm_num
  omega

theorem formatI_pieces (op : Opcode) (d a : RegName) (imm : Half) :
    piece (formatI op d a imm) 24 8 = op.code.toNat ∧ piece (formatI op d a imm) 21 3 = d.val
      ∧ piece (formatI op d a imm) 18 3 = a.val ∧ piece (formatI op d a imm) 16 2 = 0
      ∧ piece (formatI op d a imm) 0 16 = imm.toNat ∧ piece (formatI op d a imm) 0 8 = imm.toNat % 256
      ∧ piece (formatI op d a imm) 15 1 = imm.toNat / 32768 ∧ piece (formatI op d a imm) 12 3 = imm.toNat / 4096 % 8
      ∧ piece (formatI op d a imm) 8 4 = imm.toNat / 256 % 16 := by
  have ho := op.code.isLt
  have hd := d.isLt
  have ha := a.isLt
  have hi := imm.isLt
  unfold formatI
  simp only [piece_ofNat _ _ _ (show op.code.toNat * 2 ^ 24 + d.val * 2 ^ 21 + a.val * 2 ^ 18 + imm.toNat
    < 4294967296 by omega)]
  norm_num
  omega

theorem formatX_pieces (op : Opcode) (d a b : RegName) (w p : BitVec 6) :
    piece (formatX op d a b w p) 24 8 = op.code.toNat ∧ piece (formatX op d a b w p) 21 3 = d.val
      ∧ piece (formatX op d a b w p) 18 3 = a.val ∧ piece (formatX op d a b w p) 15 3 = b.val
      ∧ piece (formatX op d a b w p) 16 2 = b.val / 2 ∧ piece (formatX op d a b w p) 15 1 = b.val % 2
      ∧ piece (formatX op d a b w p) 12 3 = 0 ∧ piece (formatX op d a b w p) 6 6 = w.toNat
      ∧ piece (formatX op d a b w p) 8 4 = w.toNat / 4 ∧ piece (formatX op d a b w p) 6 2 = w.toNat % 4
      ∧ piece (formatX op d a b w p) 0 6 = p.toNat := by
  have ho := op.code.isLt
  have hd := d.isLt
  have ha := a.isLt
  have hb := b.isLt
  have hw := w.isLt
  have hp := p.isLt
  unfold formatX
  simp only [piece_ofNat _ _ _ (show op.code.toNat * 2 ^ 24 + d.val * 2 ^ 21 + a.val * 2 ^ 18 + b.val * 2 ^ 15
    + w.toNat * 2 ^ 6 + p.toNat < 4294967296 by omega)]
  norm_num
  omega

/-! ## What the decoder answers -/

/-- The pieces the formats use wider than the cuts, as sums of cut pieces. -/
theorem wide_pieces (a : Nat) :
    a / 32768 % 8 = a / 65536 % 4 * 2 + a / 32768 % 2
      ∧ a % 65536 = a / 32768 % 2 * 32768 + a / 4096 % 8 * 4096 + a / 256 % 16 * 256 + a / 64 % 4 * 64 + a % 64
      ∧ a % 256 = a / 64 % 4 * 64 + a % 64 ∧ a / 64 % 64 = a / 256 % 16 * 4 + a / 64 % 4 := by
  omega

/-- A word that a row selects decodes to that row's command. -/
theorem decode_of_selects {op : Opcode} {w : Word} (h : op.selects w = true) : decode w = .ok (op.build w) := by
  have h1 := ((op.selects_iff w).1 h).1
  have : opField w = op.code := BitVec.eq_of_toNat_eq (by rw [opField_toNat, h1])
  simp [decode, this, h]

/-- Every decoded command is the build of a row that selects the word. -/
theorem selects_of_decode {w : Word} {i : Instr} (h : decode w = .ok i) :
    ∃ op, Opcode.selects op w = true ∧ i = op.build w := by
  unfold decode at h
  split at h
  · cases h
  · rename_i op _
    split at h
    · rename_i hs
      exact ⟨op, hs, by injection h with h; exact h.symm⟩
    · cases h

/-- A command word is selected by the row of its OP value. -/
theorem selects_of_opcode {op : Opcode} {w : Word} {i : Instr} (h : w.toNat / 2 ^ 24 = op.code.toNat) (hd : decode w = .ok i) :
    op.selects w = true := by
  obtain ⟨op', hs, -⟩ := selects_of_decode hd
  have h1 := ((op'.selects_iff w).1 hs).1
  have hw := w.isLt
  have : op' = op := Opcode.code_injective (BitVec.eq_of_toNat_eq (by rw [← h1, ← h]; unfold piece; omega))
  exact this ▸ hs

@[simp] theorem Opcode.opcode_build (op : Opcode) (w : Word) : (op.build w).opcode = op := by cases op <;> rfl

/-- What a row builds can be encoded. -/
theorem Opcode.wf_build (op : Opcode) (w : Word) : (op.build w).WellFormed := by
  cases op <;> simp [Opcode.build, Instr.WellFormed, Instr.wf]
  rw [widthField_eq]
  unfold piece
  omega

end Sys2Proof
end

