-- ==== Sys2Proof/Laws/State.lean ====
section
/-! SUPPORT. One lemma per field per update of State, and per reader per update. -/

namespace Sys2Proof.Machine

/-! ## writeReg -/

@[simp] theorem State.writeReg_f (s : State) (r : RegName) (v : Long) : (s.writeReg r v).f = s.f.set r.val v := rfl
@[simp] theorem State.writeReg_cur (s : State) (r : RegName) (v : Long) : (s.writeReg r v).cur = s.cur := rfl
@[simp] theorem State.writeReg_flen (s : State) (r : RegName) (v : Long) : (s.writeReg r v).flen = s.flen := rfl
@[simp] theorem State.writeReg_crc (s : State) (r : RegName) (v : Long) : (s.writeReg r v).crc = s.crc := rfl
@[simp] theorem State.writeReg_ctrl (s : State) (r : RegName) (v : Long) : (s.writeReg r v).ctrl = s.ctrl := rfl
@[simp] theorem State.writeReg_status (s : State) (r : RegName) (v : Long) : (s.writeReg r v).status = s.status := rfl
@[simp] theorem State.writeReg_faultCmd (s : State) (r : RegName) (v : Long) : (s.writeReg r v).faultCmd = s.faultCmd := rfl
@[simp] theorem State.writeReg_faultInfo (s : State) (r : RegName) (v : Long) : (s.writeReg r v).faultInfo = s.faultInfo := rfl
@[simp] theorem State.writeReg_fbuf (s : State) (r : RegName) (v : Long) : (s.writeReg r v).fbuf = s.fbuf := rfl
@[simp] theorem State.writeReg_abuf (s : State) (r : RegName) (v : Long) : (s.writeReg r v).abuf = s.abuf := rfl
@[simp] theorem State.writeReg_crcCfg (s : State) (r : RegName) (v : Long) : (s.writeReg r v).crcCfg = s.crcCfg := rfl
@[simp] theorem State.writeReg_epoch (s : State) (r : RegName) (v : Long) : (s.writeReg r v).epoch = s.epoch := rfl
@[simp] theorem State.writeReg_inReset (s : State) (r : RegName) (v : Long) : (s.writeReg r v).inReset = s.inReset := rfl
@[simp] theorem State.writeReg_busQueue (s : State) (r : RegName) (v : Long) : (s.writeReg r v).busQueue = s.busQueue := rfl
@[simp] theorem State.writeReg_busReads (s : State) (r : RegName) (v : Long) : (s.writeReg r v).busReads = s.busReads := rfl
@[simp] theorem State.fbufByte_writeReg (s : State) (r : RegName) (v : Long) (a' : Nat) : (s.writeReg r v).fbufByte a' = s.fbufByte a' := rfl
@[simp] theorem State.abufByte_writeReg (s : State) (r : RegName) (v : Long) (k' : Nat) : (s.writeReg r v).abufByte k' = s.abufByte k' := rfl

/-! ## setCur -/

@[simp] theorem State.setCur_f (s : State) (n : Nat) : (s.setCur n).f = s.f := rfl
@[simp] theorem State.setCur_cur (s : State) (n : Nat) : (s.setCur n).cur = BitVec.ofNat 10 n := rfl
@[simp] theorem State.setCur_flen (s : State) (n : Nat) : (s.setCur n).flen = s.flen := rfl
@[simp] theorem State.setCur_crc (s : State) (n : Nat) : (s.setCur n).crc = s.crc := rfl
@[simp] theorem State.setCur_ctrl (s : State) (n : Nat) : (s.setCur n).ctrl = s.ctrl := rfl
@[simp] theorem State.setCur_status (s : State) (n : Nat) : (s.setCur n).status = s.status := rfl
@[simp] theorem State.setCur_faultCmd (s : State) (n : Nat) : (s.setCur n).faultCmd = s.faultCmd := rfl
@[simp] theorem State.setCur_faultInfo (s : State) (n : Nat) : (s.setCur n).faultInfo = s.faultInfo := rfl
@[simp] theorem State.setCur_fbuf (s : State) (n : Nat) : (s.setCur n).fbuf = s.fbuf := rfl
@[simp] theorem State.setCur_abuf (s : State) (n : Nat) : (s.setCur n).abuf = s.abuf := rfl
@[simp] theorem State.setCur_crcCfg (s : State) (n : Nat) : (s.setCur n).crcCfg = s.crcCfg := rfl
@[simp] theorem State.setCur_epoch (s : State) (n : Nat) : (s.setCur n).epoch = s.epoch := rfl
@[simp] theorem State.setCur_inReset (s : State) (n : Nat) : (s.setCur n).inReset = s.inReset := rfl
@[simp] theorem State.setCur_busQueue (s : State) (n : Nat) : (s.setCur n).busQueue = s.busQueue := rfl
@[simp] theorem State.setCur_busReads (s : State) (n : Nat) : (s.setCur n).busReads = s.busReads := rfl
@[simp] theorem State.readReg_setCur (s : State) (n : Nat) (r' : RegName) : (s.setCur n).readReg r' = s.readReg r' := rfl
@[simp] theorem State.fbufByte_setCur (s : State) (n : Nat) (a' : Nat) : (s.setCur n).fbufByte a' = s.fbufByte a' := rfl
@[simp] theorem State.abufByte_setCur (s : State) (n : Nat) (k' : Nat) : (s.setCur n).abufByte k' = s.abufByte k' := rfl

/-! ## setCrc -/

@[simp] theorem State.setCrc_f (s : State) (c : Half) : (s.setCrc c).f = s.f := rfl
@[simp] theorem State.setCrc_cur (s : State) (c : Half) : (s.setCrc c).cur = s.cur := rfl
@[simp] theorem State.setCrc_flen (s : State) (c : Half) : (s.setCrc c).flen = s.flen := rfl
@[simp] theorem State.setCrc_crc (s : State) (c : Half) : (s.setCrc c).crc = c := rfl
@[simp] theorem State.setCrc_ctrl (s : State) (c : Half) : (s.setCrc c).ctrl = s.ctrl := rfl
@[simp] theorem State.setCrc_status (s : State) (c : Half) : (s.setCrc c).status = s.status := rfl
@[simp] theorem State.setCrc_faultCmd (s : State) (c : Half) : (s.setCrc c).faultCmd = s.faultCmd := rfl
@[simp] theorem State.setCrc_faultInfo (s : State) (c : Half) : (s.setCrc c).faultInfo = s.faultInfo := rfl
@[simp] theorem State.setCrc_fbuf (s : State) (c : Half) : (s.setCrc c).fbuf = s.fbuf := rfl
@[simp] theorem State.setCrc_abuf (s : State) (c : Half) : (s.setCrc c).abuf = s.abuf := rfl
@[simp] theorem State.setCrc_crcCfg (s : State) (c : Half) : (s.setCrc c).crcCfg = s.crcCfg := rfl
@[simp] theorem State.setCrc_epoch (s : State) (c : Half) : (s.setCrc c).epoch = s.epoch := rfl
@[simp] theorem State.setCrc_inReset (s : State) (c : Half) : (s.setCrc c).inReset = s.inReset := rfl
@[simp] theorem State.setCrc_busQueue (s : State) (c : Half) : (s.setCrc c).busQueue = s.busQueue := rfl
@[simp] theorem State.setCrc_busReads (s : State) (c : Half) : (s.setCrc c).busReads = s.busReads := rfl
@[simp] theorem State.readReg_setCrc (s : State) (c : Half) (r' : RegName) : (s.setCrc c).readReg r' = s.readReg r' := rfl
@[simp] theorem State.fbufByte_setCrc (s : State) (c : Half) (a' : Nat) : (s.setCrc c).fbufByte a' = s.fbufByte a' := rfl
@[simp] theorem State.abufByte_setCrc (s : State) (c : Half) (k' : Nat) : (s.setCrc c).abufByte k' = s.abufByte k' := rfl

/-! ## writeFbufByte -/

@[simp] theorem State.writeFbufByte_f (s : State) (a : Nat) (v : Byte) : (s.writeFbufByte a v).f = s.f := rfl
@[simp] theorem State.writeFbufByte_cur (s : State) (a : Nat) (v : Byte) : (s.writeFbufByte a v).cur = s.cur := rfl
@[simp] theorem State.writeFbufByte_flen (s : State) (a : Nat) (v : Byte) : (s.writeFbufByte a v).flen = s.flen := rfl
@[simp] theorem State.writeFbufByte_crc (s : State) (a : Nat) (v : Byte) : (s.writeFbufByte a v).crc = s.crc := rfl
@[simp] theorem State.writeFbufByte_ctrl (s : State) (a : Nat) (v : Byte) : (s.writeFbufByte a v).ctrl = s.ctrl := rfl
@[simp] theorem State.writeFbufByte_status (s : State) (a : Nat) (v : Byte) : (s.writeFbufByte a v).status = s.status := rfl
@[simp] theorem State.writeFbufByte_faultCmd (s : State) (a : Nat) (v : Byte) : (s.writeFbufByte a v).faultCmd = s.faultCmd := rfl
@[simp] theorem State.writeFbufByte_faultInfo (s : State) (a : Nat) (v : Byte) : (s.writeFbufByte a v).faultInfo = s.faultInfo := rfl
@[simp] theorem State.writeFbufByte_fbuf (s : State) (a : Nat) (v : Byte) : (s.writeFbufByte a v).fbuf = s.fbuf.write a v := rfl
@[simp] theorem State.writeFbufByte_abuf (s : State) (a : Nat) (v : Byte) : (s.writeFbufByte a v).abuf = s.abuf := rfl
@[simp] theorem State.writeFbufByte_crcCfg (s : State) (a : Nat) (v : Byte) : (s.writeFbufByte a v).crcCfg = s.crcCfg := rfl
@[simp] theorem State.writeFbufByte_epoch (s : State) (a : Nat) (v : Byte) : (s.writeFbufByte a v).epoch = s.epoch := rfl
@[simp] theorem State.writeFbufByte_inReset (s : State) (a : Nat) (v : Byte) : (s.writeFbufByte a v).inReset = s.inReset := rfl
@[simp] theorem State.writeFbufByte_busQueue (s : State) (a : Nat) (v : Byte) : (s.writeFbufByte a v).busQueue = s.busQueue := rfl
@[simp] theorem State.writeFbufByte_busReads (s : State) (a : Nat) (v : Byte) : (s.writeFbufByte a v).busReads = s.busReads := rfl
@[simp] theorem State.readReg_writeFbufByte (s : State) (a : Nat) (v : Byte) (r' : RegName) : (s.writeFbufByte a v).readReg r' = s.readReg r' := rfl
@[simp] theorem State.abufByte_writeFbufByte (s : State) (a : Nat) (v : Byte) (k' : Nat) : (s.writeFbufByte a v).abufByte k' = s.abufByte k' := rfl

/-! ## setAbuf -/

@[simp] theorem State.setAbuf_f (s : State) (b : Vector Byte 10) : (s.setAbuf b).f = s.f := rfl
@[simp] theorem State.setAbuf_cur (s : State) (b : Vector Byte 10) : (s.setAbuf b).cur = s.cur := rfl
@[simp] theorem State.setAbuf_flen (s : State) (b : Vector Byte 10) : (s.setAbuf b).flen = s.flen := rfl
@[simp] theorem State.setAbuf_crc (s : State) (b : Vector Byte 10) : (s.setAbuf b).crc = s.crc := rfl
@[simp] theorem State.setAbuf_ctrl (s : State) (b : Vector Byte 10) : (s.setAbuf b).ctrl = s.ctrl := rfl
@[simp] theorem State.setAbuf_status (s : State) (b : Vector Byte 10) : (s.setAbuf b).status = s.status := rfl
@[simp] theorem State.setAbuf_faultCmd (s : State) (b : Vector Byte 10) : (s.setAbuf b).faultCmd = s.faultCmd := rfl
@[simp] theorem State.setAbuf_faultInfo (s : State) (b : Vector Byte 10) : (s.setAbuf b).faultInfo = s.faultInfo := rfl
@[simp] theorem State.setAbuf_fbuf (s : State) (b : Vector Byte 10) : (s.setAbuf b).fbuf = s.fbuf := rfl
@[simp] theorem State.setAbuf_abuf (s : State) (b : Vector Byte 10) : (s.setAbuf b).abuf = b := rfl
@[simp] theorem State.setAbuf_crcCfg (s : State) (b : Vector Byte 10) : (s.setAbuf b).crcCfg = s.crcCfg := rfl
@[simp] theorem State.setAbuf_epoch (s : State) (b : Vector Byte 10) : (s.setAbuf b).epoch = s.epoch := rfl
@[simp] theorem State.setAbuf_inReset (s : State) (b : Vector Byte 10) : (s.setAbuf b).inReset = s.inReset := rfl
@[simp] theorem State.setAbuf_busQueue (s : State) (b : Vector Byte 10) : (s.setAbuf b).busQueue = s.busQueue := rfl
@[simp] theorem State.setAbuf_busReads (s : State) (b : Vector Byte 10) : (s.setAbuf b).busReads = s.busReads := rfl
@[simp] theorem State.readReg_setAbuf (s : State) (b : Vector Byte 10) (r' : RegName) : (s.setAbuf b).readReg r' = s.readReg r' := rfl
@[simp] theorem State.fbufByte_setAbuf (s : State) (b : Vector Byte 10) (a' : Nat) : (s.setAbuf b).fbufByte a' = s.fbufByte a' := rfl

/-! ## clearFault -/

@[simp] theorem State.clearFault_f (s : State) : (s.clearFault).f = s.f := rfl
@[simp] theorem State.clearFault_cur (s : State) : (s.clearFault).cur = s.cur := rfl
@[simp] theorem State.clearFault_flen (s : State) : (s.clearFault).flen = s.flen := rfl
@[simp] theorem State.clearFault_crc (s : State) : (s.clearFault).crc = s.crc := rfl
@[simp] theorem State.clearFault_ctrl (s : State) : (s.clearFault).ctrl = s.ctrl := rfl
@[simp] theorem State.clearFault_status (s : State) : (s.clearFault).status = { s.status with fault := false, cause := 0 } := rfl
@[simp] theorem State.clearFault_faultCmd (s : State) : (s.clearFault).faultCmd = s.faultCmd := rfl
@[simp] theorem State.clearFault_faultInfo (s : State) : (s.clearFault).faultInfo = s.faultInfo := rfl
@[simp] theorem State.clearFault_fbuf (s : State) : (s.clearFault).fbuf = s.fbuf := rfl
@[simp] theorem State.clearFault_abuf (s : State) : (s.clearFault).abuf = s.abuf := rfl
@[simp] theorem State.clearFault_crcCfg (s : State) : (s.clearFault).crcCfg = s.crcCfg := rfl
@[simp] theorem State.clearFault_epoch (s : State) : (s.clearFault).epoch = s.epoch := rfl
@[simp] theorem State.clearFault_inReset (s : State) : (s.clearFault).inReset = s.inReset := rfl
@[simp] theorem State.clearFault_busQueue (s : State) : (s.clearFault).busQueue = s.busQueue := rfl
@[simp] theorem State.clearFault_busReads (s : State) : (s.clearFault).busReads = s.busReads := rfl
@[simp] theorem State.readReg_clearFault (s : State) (r' : RegName) : (s.clearFault).readReg r' = s.readReg r' := rfl
@[simp] theorem State.fbufByte_clearFault (s : State) (a' : Nat) : (s.clearFault).fbufByte a' = s.fbufByte a' := rfl
@[simp] theorem State.abufByte_clearFault (s : State) (k' : Nat) : (s.clearFault).abufByte k' = s.abufByte k' := rfl

/-! ## assertReset -/

@[simp] theorem State.assertReset_f (s : State) : (s.assertReset).f = s.f := rfl
@[simp] theorem State.assertReset_cur (s : State) : (s.assertReset).cur = s.cur := rfl
@[simp] theorem State.assertReset_flen (s : State) : (s.assertReset).flen = s.flen := rfl
@[simp] theorem State.assertReset_crc (s : State) : (s.assertReset).crc = s.crc := rfl
@[simp] theorem State.assertReset_ctrl (s : State) : (s.assertReset).ctrl = s.ctrl := rfl
@[simp] theorem State.assertReset_status (s : State) : (s.assertReset).status = s.status := rfl
@[simp] theorem State.assertReset_faultCmd (s : State) : (s.assertReset).faultCmd = s.faultCmd := rfl
@[simp] theorem State.assertReset_faultInfo (s : State) : (s.assertReset).faultInfo = s.faultInfo := rfl
@[simp] theorem State.assertReset_fbuf (s : State) : (s.assertReset).fbuf = s.fbuf := rfl
@[simp] theorem State.assertReset_abuf (s : State) : (s.assertReset).abuf = s.abuf := rfl
@[simp] theorem State.assertReset_crcCfg (s : State) : (s.assertReset).crcCfg = s.crcCfg := rfl
@[simp] theorem State.assertReset_epoch (s : State) : (s.assertReset).epoch = s.epoch := rfl
@[simp] theorem State.assertReset_inReset (s : State) : (s.assertReset).inReset = true := rfl
@[simp] theorem State.assertReset_busQueue (s : State) : (s.assertReset).busQueue = s.busQueue := rfl
@[simp] theorem State.assertReset_busReads (s : State) : (s.assertReset).busReads = s.busReads := rfl
@[simp] theorem State.readReg_assertReset (s : State) (r' : RegName) : (s.assertReset).readReg r' = s.readReg r' := rfl
@[simp] theorem State.fbufByte_assertReset (s : State) (a' : Nat) : (s.assertReset).fbufByte a' = s.fbufByte a' := rfl
@[simp] theorem State.abufByte_assertReset (s : State) (k' : Nat) : (s.assertReset).abufByte k' = s.abufByte k' := rfl

/-! ## setNondecIf -/

@[simp] theorem State.setNondecIf_f (s : State) (c : Bool) : (s.setNondecIf c).f = s.f := rfl
@[simp] theorem State.setNondecIf_cur (s : State) (c : Bool) : (s.setNondecIf c).cur = s.cur := rfl
@[simp] theorem State.setNondecIf_flen (s : State) (c : Bool) : (s.setNondecIf c).flen = s.flen := rfl
@[simp] theorem State.setNondecIf_crc (s : State) (c : Bool) : (s.setNondecIf c).crc = s.crc := rfl
@[simp] theorem State.setNondecIf_ctrl (s : State) (c : Bool) : (s.setNondecIf c).ctrl = s.ctrl := rfl
@[simp] theorem State.setNondecIf_status (s : State) (c : Bool) : (s.setNondecIf c).status = { s.status with nondec := s.status.nondec || c } := rfl
@[simp] theorem State.setNondecIf_faultCmd (s : State) (c : Bool) : (s.setNondecIf c).faultCmd = s.faultCmd := rfl
@[simp] theorem State.setNondecIf_faultInfo (s : State) (c : Bool) : (s.setNondecIf c).faultInfo = s.faultInfo := rfl
@[simp] theorem State.setNondecIf_fbuf (s : State) (c : Bool) : (s.setNondecIf c).fbuf = s.fbuf := rfl
@[simp] theorem State.setNondecIf_abuf (s : State) (c : Bool) : (s.setNondecIf c).abuf = s.abuf := rfl
@[simp] theorem State.setNondecIf_crcCfg (s : State) (c : Bool) : (s.setNondecIf c).crcCfg = s.crcCfg := rfl
@[simp] theorem State.setNondecIf_epoch (s : State) (c : Bool) : (s.setNondecIf c).epoch = s.epoch := rfl
@[simp] theorem State.setNondecIf_inReset (s : State) (c : Bool) : (s.setNondecIf c).inReset = s.inReset := rfl
@[simp] theorem State.setNondecIf_busQueue (s : State) (c : Bool) : (s.setNondecIf c).busQueue = s.busQueue := rfl
@[simp] theorem State.setNondecIf_busReads (s : State) (c : Bool) : (s.setNondecIf c).busReads = s.busReads := rfl
@[simp] theorem State.readReg_setNondecIf (s : State) (c : Bool) (r' : RegName) : (s.setNondecIf c).readReg r' = s.readReg r' := rfl
@[simp] theorem State.fbufByte_setNondecIf (s : State) (c : Bool) (a' : Nat) : (s.setNondecIf c).fbufByte a' = s.fbufByte a' := rfl
@[simp] theorem State.abufByte_setNondecIf (s : State) (c : Bool) (k' : Nat) : (s.setNondecIf c).abufByte k' = s.abufByte k' := rfl

/-! ## setAckv -/

@[simp] theorem State.setAckv_f (s : State) : (s.setAckv).f = s.f := rfl
@[simp] theorem State.setAckv_cur (s : State) : (s.setAckv).cur = s.cur := rfl
@[simp] theorem State.setAckv_flen (s : State) : (s.setAckv).flen = s.flen := rfl
@[simp] theorem State.setAckv_crc (s : State) : (s.setAckv).crc = s.crc := rfl
@[simp] theorem State.setAckv_ctrl (s : State) : (s.setAckv).ctrl = s.ctrl := rfl
@[simp] theorem State.setAckv_status (s : State) : (s.setAckv).status = { s.status with ackv := true } := rfl
@[simp] theorem State.setAckv_faultCmd (s : State) : (s.setAckv).faultCmd = s.faultCmd := rfl
@[simp] theorem State.setAckv_faultInfo (s : State) : (s.setAckv).faultInfo = s.faultInfo := rfl
@[simp] theorem State.setAckv_fbuf (s : State) : (s.setAckv).fbuf = s.fbuf := rfl
@[simp] theorem State.setAckv_abuf (s : State) : (s.setAckv).abuf = s.abuf := rfl
@[simp] theorem State.setAckv_crcCfg (s : State) : (s.setAckv).crcCfg = s.crcCfg := rfl
@[simp] theorem State.setAckv_epoch (s : State) : (s.setAckv).epoch = s.epoch := rfl
@[simp] theorem State.setAckv_inReset (s : State) : (s.setAckv).inReset = s.inReset := rfl
@[simp] theorem State.setAckv_busQueue (s : State) : (s.setAckv).busQueue = s.busQueue := rfl
@[simp] theorem State.setAckv_busReads (s : State) : (s.setAckv).busReads = s.busReads := rfl
@[simp] theorem State.readReg_setAckv (s : State) (r' : RegName) : (s.setAckv).readReg r' = s.readReg r' := rfl
@[simp] theorem State.fbufByte_setAckv (s : State) (a' : Nat) : (s.setAckv).fbufByte a' = s.fbufByte a' := rfl
@[simp] theorem State.abufByte_setAckv (s : State) (k' : Nat) : (s.setAckv).abufByte k' = s.abufByte k' := rfl

/-! ## writeCtrl -/

@[simp] theorem State.writeCtrl_f (s : State) (w : Word) : (s.writeCtrl w).f = s.f := rfl
@[simp] theorem State.writeCtrl_cur (s : State) (w : Word) : (s.writeCtrl w).cur = s.cur := rfl
@[simp] theorem State.writeCtrl_flen (s : State) (w : Word) : (s.writeCtrl w).flen = s.flen := rfl
@[simp] theorem State.writeCtrl_crc (s : State) (w : Word) : (s.writeCtrl w).crc = s.crc := rfl
@[simp] theorem State.writeCtrl_ctrl (s : State) (w : Word) : (s.writeCtrl w).ctrl = Ctrl.ofWord w := rfl
@[simp] theorem State.writeCtrl_status (s : State) (w : Word) : (s.writeCtrl w).status = s.status := rfl
@[simp] theorem State.writeCtrl_faultCmd (s : State) (w : Word) : (s.writeCtrl w).faultCmd = s.faultCmd := rfl
@[simp] theorem State.writeCtrl_faultInfo (s : State) (w : Word) : (s.writeCtrl w).faultInfo = s.faultInfo := rfl
@[simp] theorem State.writeCtrl_fbuf (s : State) (w : Word) : (s.writeCtrl w).fbuf = s.fbuf := rfl
@[simp] theorem State.writeCtrl_abuf (s : State) (w : Word) : (s.writeCtrl w).abuf = s.abuf := rfl
@[simp] theorem State.writeCtrl_crcCfg (s : State) (w : Word) : (s.writeCtrl w).crcCfg = s.crcCfg := rfl
@[simp] theorem State.writeCtrl_epoch (s : State) (w : Word) : (s.writeCtrl w).epoch = s.epoch := rfl
@[simp] theorem State.writeCtrl_inReset (s : State) (w : Word) : (s.writeCtrl w).inReset = s.inReset := rfl
@[simp] theorem State.writeCtrl_busQueue (s : State) (w : Word) : (s.writeCtrl w).busQueue = s.busQueue := rfl
@[simp] theorem State.writeCtrl_busReads (s : State) (w : Word) : (s.writeCtrl w).busReads = s.busReads := rfl
@[simp] theorem State.readReg_writeCtrl (s : State) (w : Word) (r' : RegName) : (s.writeCtrl w).readReg r' = s.readReg r' := rfl
@[simp] theorem State.fbufByte_writeCtrl (s : State) (w : Word) (a' : Nat) : (s.writeCtrl w).fbufByte a' = s.fbufByte a' := rfl
@[simp] theorem State.abufByte_writeCtrl (s : State) (w : Word) (k' : Nat) : (s.writeCtrl w).abufByte k' = s.abufByte k' := rfl

/-! ## answerRead -/

@[simp] theorem State.answerRead_f (s : State) (v : Word) : (s.answerRead v).f = s.f := rfl
@[simp] theorem State.answerRead_cur (s : State) (v : Word) : (s.answerRead v).cur = s.cur := rfl
@[simp] theorem State.answerRead_flen (s : State) (v : Word) : (s.answerRead v).flen = s.flen := rfl
@[simp] theorem State.answerRead_crc (s : State) (v : Word) : (s.answerRead v).crc = s.crc := rfl
@[simp] theorem State.answerRead_ctrl (s : State) (v : Word) : (s.answerRead v).ctrl = s.ctrl := rfl
@[simp] theorem State.answerRead_status (s : State) (v : Word) : (s.answerRead v).status = s.status := rfl
@[simp] theorem State.answerRead_faultCmd (s : State) (v : Word) : (s.answerRead v).faultCmd = s.faultCmd := rfl
@[simp] theorem State.answerRead_faultInfo (s : State) (v : Word) : (s.answerRead v).faultInfo = s.faultInfo := rfl
@[simp] theorem State.answerRead_fbuf (s : State) (v : Word) : (s.answerRead v).fbuf = s.fbuf := rfl
@[simp] theorem State.answerRead_abuf (s : State) (v : Word) : (s.answerRead v).abuf = s.abuf := rfl
@[simp] theorem State.answerRead_crcCfg (s : State) (v : Word) : (s.answerRead v).crcCfg = s.crcCfg := rfl
@[simp] theorem State.answerRead_epoch (s : State) (v : Word) : (s.answerRead v).epoch = s.epoch := rfl
@[simp] theorem State.answerRead_inReset (s : State) (v : Word) : (s.answerRead v).inReset = s.inReset := rfl
@[simp] theorem State.answerRead_busQueue (s : State) (v : Word) : (s.answerRead v).busQueue = s.busQueue := rfl
@[simp] theorem State.answerRead_busReads (s : State) (v : Word) : (s.answerRead v).busReads = v :: s.busReads := rfl
@[simp] theorem State.readReg_answerRead (s : State) (v : Word) (r' : RegName) : (s.answerRead v).readReg r' = s.readReg r' := rfl
@[simp] theorem State.fbufByte_answerRead (s : State) (v : Word) (a' : Nat) : (s.answerRead v).fbufByte a' = s.fbufByte a' := rfl
@[simp] theorem State.abufByte_answerRead (s : State) (v : Word) (k' : Nat) : (s.answerRead v).abufByte k' = s.abufByte k' := rfl

/-! ## withQueue -/

@[simp] theorem State.withQueue_f (s : State) (q : List BusEvent) : (s.withQueue q).f = s.f := rfl
@[simp] theorem State.withQueue_cur (s : State) (q : List BusEvent) : (s.withQueue q).cur = s.cur := rfl
@[simp] theorem State.withQueue_flen (s : State) (q : List BusEvent) : (s.withQueue q).flen = s.flen := rfl
@[simp] theorem State.withQueue_crc (s : State) (q : List BusEvent) : (s.withQueue q).crc = s.crc := rfl
@[simp] theorem State.withQueue_ctrl (s : State) (q : List BusEvent) : (s.withQueue q).ctrl = s.ctrl := rfl
@[simp] theorem State.withQueue_status (s : State) (q : List BusEvent) : (s.withQueue q).status = s.status := rfl
@[simp] theorem State.withQueue_faultCmd (s : State) (q : List BusEvent) : (s.withQueue q).faultCmd = s.faultCmd := rfl
@[simp] theorem State.withQueue_faultInfo (s : State) (q : List BusEvent) : (s.withQueue q).faultInfo = s.faultInfo := rfl
@[simp] theorem State.withQueue_fbuf (s : State) (q : List BusEvent) : (s.withQueue q).fbuf = s.fbuf := rfl
@[simp] theorem State.withQueue_abuf (s : State) (q : List BusEvent) : (s.withQueue q).abuf = s.abuf := rfl
@[simp] theorem State.withQueue_crcCfg (s : State) (q : List BusEvent) : (s.withQueue q).crcCfg = s.crcCfg := rfl
@[simp] theorem State.withQueue_epoch (s : State) (q : List BusEvent) : (s.withQueue q).epoch = s.epoch := rfl
@[simp] theorem State.withQueue_inReset (s : State) (q : List BusEvent) : (s.withQueue q).inReset = s.inReset := rfl
@[simp] theorem State.withQueue_busQueue (s : State) (q : List BusEvent) : (s.withQueue q).busQueue = q := rfl
@[simp] theorem State.withQueue_busReads (s : State) (q : List BusEvent) : (s.withQueue q).busReads = s.busReads := rfl
@[simp] theorem State.readReg_withQueue (s : State) (q : List BusEvent) (r' : RegName) : (s.withQueue q).readReg r' = s.readReg r' := rfl
@[simp] theorem State.fbufByte_withQueue (s : State) (q : List BusEvent) (a' : Nat) : (s.withQueue q).fbufByte a' = s.fbufByte a' := rfl
@[simp] theorem State.abufByte_withQueue (s : State) (q : List BusEvent) (k' : Nat) : (s.withQueue q).abufByte k' = s.abufByte k' := rfl

/-! ## withFbuf -/

@[simp] theorem State.withFbuf_f (s : State) (m : Memory) (e : Nat) : (s.withFbuf m e).f = s.f := rfl
@[simp] theorem State.withFbuf_cur (s : State) (m : Memory) (e : Nat) : (s.withFbuf m e).cur = s.cur := rfl
@[simp] theorem State.withFbuf_flen (s : State) (m : Memory) (e : Nat) : (s.withFbuf m e).flen = s.flen := rfl
@[simp] theorem State.withFbuf_crc (s : State) (m : Memory) (e : Nat) : (s.withFbuf m e).crc = s.crc := rfl
@[simp] theorem State.withFbuf_ctrl (s : State) (m : Memory) (e : Nat) : (s.withFbuf m e).ctrl = s.ctrl := rfl
@[simp] theorem State.withFbuf_status (s : State) (m : Memory) (e : Nat) : (s.withFbuf m e).status = s.status := rfl
@[simp] theorem State.withFbuf_faultCmd (s : State) (m : Memory) (e : Nat) : (s.withFbuf m e).faultCmd = s.faultCmd := rfl
@[simp] theorem State.withFbuf_faultInfo (s : State) (m : Memory) (e : Nat) : (s.withFbuf m e).faultInfo = s.faultInfo := rfl
@[simp] theorem State.withFbuf_fbuf (s : State) (m : Memory) (e : Nat) : (s.withFbuf m e).fbuf = m := rfl
@[simp] theorem State.withFbuf_abuf (s : State) (m : Memory) (e : Nat) : (s.withFbuf m e).abuf = s.abuf := rfl
@[simp] theorem State.withFbuf_crcCfg (s : State) (m : Memory) (e : Nat) : (s.withFbuf m e).crcCfg = s.crcCfg := rfl
@[simp] theorem State.withFbuf_epoch (s : State) (m : Memory) (e : Nat) : (s.withFbuf m e).epoch = e := rfl
@[simp] theorem State.withFbuf_inReset (s : State) (m : Memory) (e : Nat) : (s.withFbuf m e).inReset = s.inReset := rfl
@[simp] theorem State.withFbuf_busQueue (s : State) (m : Memory) (e : Nat) : (s.withFbuf m e).busQueue = s.busQueue := rfl
@[simp] theorem State.withFbuf_busReads (s : State) (m : Memory) (e : Nat) : (s.withFbuf m e).busReads = s.busReads := rfl
@[simp] theorem State.readReg_withFbuf (s : State) (m : Memory) (e : Nat) (r' : RegName) : (s.withFbuf m e).readReg r' = s.readReg r' := rfl
@[simp] theorem State.abufByte_withFbuf (s : State) (m : Memory) (e : Nat) (k' : Nat) : (s.withFbuf m e).abufByte k' = s.abufByte k' := rfl

/-! ## recordFault, writeStatus, writeFlen: updates under a condition -/

@[simp] theorem State.recordFault_f (s : State) (c : Cause) (cmd info : Word) : (s.recordFault c cmd info).f = s.f := by
  unfold State.recordFault; split <;> rfl
@[simp] theorem State.recordFault_cur (s : State) (c : Cause) (cmd info : Word) : (s.recordFault c cmd info).cur = s.cur := by
  unfold State.recordFault; split <;> rfl
@[simp] theorem State.recordFault_flen (s : State) (c : Cause) (cmd info : Word) : (s.recordFault c cmd info).flen = s.flen := by
  unfold State.recordFault; split <;> rfl
@[simp] theorem State.recordFault_crc (s : State) (c : Cause) (cmd info : Word) : (s.recordFault c cmd info).crc = s.crc := by
  unfold State.recordFault; split <;> rfl
@[simp] theorem State.recordFault_ctrl (s : State) (c : Cause) (cmd info : Word) : (s.recordFault c cmd info).ctrl = s.ctrl := by
  unfold State.recordFault; split <;> rfl
@[simp] theorem State.recordFault_fbuf (s : State) (c : Cause) (cmd info : Word) : (s.recordFault c cmd info).fbuf = s.fbuf := by
  unfold State.recordFault; split <;> rfl
@[simp] theorem State.recordFault_abuf (s : State) (c : Cause) (cmd info : Word) : (s.recordFault c cmd info).abuf = s.abuf := by
  unfold State.recordFault; split <;> rfl
@[simp] theorem State.recordFault_crcCfg (s : State) (c : Cause) (cmd info : Word) : (s.recordFault c cmd info).crcCfg = s.crcCfg := by
  unfold State.recordFault; split <;> rfl
@[simp] theorem State.recordFault_epoch (s : State) (c : Cause) (cmd info : Word) : (s.recordFault c cmd info).epoch = s.epoch := by
  unfold State.recordFault; split <;> rfl
@[simp] theorem State.recordFault_inReset (s : State) (c : Cause) (cmd info : Word) : (s.recordFault c cmd info).inReset = s.inReset := by
  unfold State.recordFault; split <;> rfl
@[simp] theorem State.recordFault_busQueue (s : State) (c : Cause) (cmd info : Word) : (s.recordFault c cmd info).busQueue = s.busQueue := by
  unfold State.recordFault; split <;> rfl
@[simp] theorem State.recordFault_busReads (s : State) (c : Cause) (cmd info : Word) : (s.recordFault c cmd info).busReads = s.busReads := by
  unfold State.recordFault; split <;> rfl
@[simp] theorem State.readReg_recordFault (s : State) (c : Cause) (cmd info : Word) (r' : RegName) : (s.recordFault c cmd info).readReg r' = s.readReg r' := by
  simp [State.readReg]
@[simp] theorem State.fbufByte_recordFault (s : State) (c : Cause) (cmd info : Word) (a' : Nat) : (s.recordFault c cmd info).fbufByte a' = s.fbufByte a' := by
  simp [State.fbufByte]
@[simp] theorem State.abufByte_recordFault (s : State) (c : Cause) (cmd info : Word) (k' : Nat) : (s.recordFault c cmd info).abufByte k' = s.abufByte k' := by
  simp [State.abufByte]

@[simp] theorem State.writeStatus_f (s : State) (w : Word) : (s.writeStatus w).f = s.f := by
  unfold State.writeStatus; dsimp only; split <;> rfl
@[simp] theorem State.writeStatus_cur (s : State) (w : Word) : (s.writeStatus w).cur = s.cur := by
  unfold State.writeStatus; dsimp only; split <;> rfl
@[simp] theorem State.writeStatus_flen (s : State) (w : Word) : (s.writeStatus w).flen = s.flen := by
  unfold State.writeStatus; dsimp only; split <;> rfl
@[simp] theorem State.writeStatus_crc (s : State) (w : Word) : (s.writeStatus w).crc = s.crc := by
  unfold State.writeStatus; dsimp only; split <;> rfl
@[simp] theorem State.writeStatus_ctrl (s : State) (w : Word) : (s.writeStatus w).ctrl = s.ctrl := by
  unfold State.writeStatus; dsimp only; split <;> rfl
@[simp] theorem State.writeStatus_faultCmd (s : State) (w : Word) : (s.writeStatus w).faultCmd = s.faultCmd := by
  unfold State.writeStatus; dsimp only; split <;> rfl
@[simp] theorem State.writeStatus_faultInfo (s : State) (w : Word) : (s.writeStatus w).faultInfo = s.faultInfo := by
  unfold State.writeStatus; dsimp only; split <;> rfl
@[simp] theorem State.writeStatus_fbuf (s : State) (w : Word) : (s.writeStatus w).fbuf = s.fbuf := by
  unfold State.writeStatus; dsimp only; split <;> rfl
@[simp] theorem State.writeStatus_abuf (s : State) (w : Word) : (s.writeStatus w).abuf = s.abuf := by
  unfold State.writeStatus; dsimp only; split <;> rfl
@[simp] theorem State.writeStatus_crcCfg (s : State) (w : Word) : (s.writeStatus w).crcCfg = s.crcCfg := by
  unfold State.writeStatus; dsimp only; split <;> rfl
@[simp] theorem State.writeStatus_epoch (s : State) (w : Word) : (s.writeStatus w).epoch = s.epoch := by
  unfold State.writeStatus; dsimp only; split <;> rfl
@[simp] theorem State.writeStatus_inReset (s : State) (w : Word) : (s.writeStatus w).inReset = s.inReset := by
  unfold State.writeStatus; dsimp only; split <;> rfl
@[simp] theorem State.writeStatus_busQueue (s : State) (w : Word) : (s.writeStatus w).busQueue = s.busQueue := by
  unfold State.writeStatus; dsimp only; split <;> rfl
@[simp] theorem State.writeStatus_busReads (s : State) (w : Word) : (s.writeStatus w).busReads = s.busReads := by
  unfold State.writeStatus; dsimp only; split <;> rfl
@[simp] theorem State.readReg_writeStatus (s : State) (w : Word) (r' : RegName) : (s.writeStatus w).readReg r' = s.readReg r' := by
  simp [State.readReg]
@[simp] theorem State.fbufByte_writeStatus (s : State) (w : Word) (a' : Nat) : (s.writeStatus w).fbufByte a' = s.fbufByte a' := by
  simp [State.fbufByte]
@[simp] theorem State.abufByte_writeStatus (s : State) (w : Word) (k' : Nat) : (s.writeStatus w).abufByte k' = s.abufByte k' := by
  simp [State.abufByte]

@[simp] theorem State.writeFlen_f (s : State) (w : Word) : (s.writeFlen w).f = s.f := by
  unfold State.writeFlen; split <;> simp
@[simp] theorem State.writeFlen_crc (s : State) (w : Word) : (s.writeFlen w).crc = s.crc := by
  unfold State.writeFlen; split <;> simp
@[simp] theorem State.writeFlen_ctrl (s : State) (w : Word) : (s.writeFlen w).ctrl = s.ctrl := by
  unfold State.writeFlen; split <;> simp
@[simp] theorem State.writeFlen_fbuf (s : State) (w : Word) : (s.writeFlen w).fbuf = s.fbuf := by
  unfold State.writeFlen; split <;> simp
@[simp] theorem State.writeFlen_abuf (s : State) (w : Word) : (s.writeFlen w).abuf = s.abuf := by
  unfold State.writeFlen; split <;> simp
@[simp] theorem State.writeFlen_crcCfg (s : State) (w : Word) : (s.writeFlen w).crcCfg = s.crcCfg := by
  unfold State.writeFlen; split <;> simp
@[simp] theorem State.writeFlen_epoch (s : State) (w : Word) : (s.writeFlen w).epoch = s.epoch := by
  unfold State.writeFlen; split <;> simp
@[simp] theorem State.writeFlen_inReset (s : State) (w : Word) : (s.writeFlen w).inReset = s.inReset := by
  unfold State.writeFlen; split <;> simp
@[simp] theorem State.writeFlen_busQueue (s : State) (w : Word) : (s.writeFlen w).busQueue = s.busQueue := by
  unfold State.writeFlen; split <;> simp
@[simp] theorem State.writeFlen_busReads (s : State) (w : Word) : (s.writeFlen w).busReads = s.busReads := by
  unfold State.writeFlen; split <;> simp
@[simp] theorem State.readReg_writeFlen (s : State) (w : Word) (r' : RegName) : (s.writeFlen w).readReg r' = s.readReg r' := by
  simp [State.readReg]
@[simp] theorem State.fbufByte_writeFlen (s : State) (w : Word) (a' : Nat) : (s.writeFlen w).fbufByte a' = s.fbufByte a' := by
  simp [State.fbufByte]
@[simp] theorem State.abufByte_writeFlen (s : State) (w : Word) (k' : Nat) : (s.writeFlen w).abufByte k' = s.abufByte k' := by
  simp [State.abufByte]

end Sys2Proof.Machine
end

