-- ==== Sys2Proof/Laws/Memory.lean ====
section
/-! SUPPORT. FBUF's cell list: read after write, the canonical form, and the block's byte reads over it. -/

namespace Sys2Proof.Machine

theorem Memory.read?_write_same (m : Memory) (a : Nat) (v : Byte) : (m.write a v).read? a = some v := by
  induction m with
  | nil => simp [Memory.write, Memory.read?]
  | cons c m ih =>
    unfold Memory.write
    split
    · simp [Memory.read?]
    · split
      · simp [Memory.read?]
      · rename_i h1 h2
        simp [Memory.read?, ih, show c.1 ≠ a from fun h => h2 h.symm]

theorem Memory.read?_write_other (m : Memory) {a b : Nat} (v : Byte) (h : b ≠ a) :
    (m.write a v).read? b = m.read? b := by
  induction m with
  | nil => simp [Memory.write, Memory.read?, Ne.symm h]
  | cons c m ih =>
    unfold Memory.write
    split
    · simp [Memory.read?, Ne.symm h]
    · split
      · rename_i h1 h2
        simp [Memory.read?, Ne.symm h, ← h2]
      · simp [Memory.read?, ih]

/-- Read after write, in one equation. -/
theorem Memory.read?_write (m : Memory) (a b : Nat) (v : Byte) :
    (m.write a v).read? b = if b = a then some v else m.read? b := by
  split
  · rename_i h; subst h; exact m.read?_write_same b v
  · rename_i h; exact m.read?_write_other v h

theorem Memory.canonicalFrom_write (m : Memory) {lo a : Nat} (v : Byte) (hlo : lo ≤ a) (ha : a < Config.fbufBytes)
    (h : Memory.canonicalFrom lo m = true) : Memory.canonicalFrom lo (m.write a v) = true := by
  induction m generalizing lo with
  | nil => simp [Memory.write, Memory.canonicalFrom, hlo, ha]
  | cons c m ih =>
    simp only [Memory.canonicalFrom, Bool.and_eq_true, decide_eq_true_eq] at h
    obtain ⟨⟨h1, h2⟩, h3⟩ := h
    unfold Memory.write
    split
    · rename_i hac
      simp [Memory.canonicalFrom, hlo, ha, h2, h3, Nat.succ_le_of_lt hac]
    · split
      · rename_i _ hac
        subst hac
        simp [Memory.canonicalFrom, hlo, ha, h3]
      · rename_i h4 h5
        simp [Memory.canonicalFrom, h1, h2, ih (lo := c.1 + 1) (by omega) h3]

/-- Every write inside FBUF keeps the canonical form. -/
theorem Memory.wf_write {m : Memory} {a : Nat} (v : Byte) (ha : a < Config.fbufBytes) (h : m.wf = true) :
    (m.write a v).wf = true :=
  m.canonicalFrom_write v (Nat.zero_le a) ha h

@[simp] theorem Memory.wf_nil : Memory.wf [] = true := rfl

theorem State.reset_fbuf_wf : State.reset.fbuf.wf = true := rfl

/-! ## The bytes the block reads -/

/-- The byte at b after a byte is stored at a. -/
theorem State.fbufByte_writeFbufByte (s : State) (a b : Nat) (v : Byte) :
    (s.writeFbufByte a v).fbufByte b = if b = a then v else s.fbufByte b := by
  simp only [State.fbufByte, State.writeFbufByte, Memory.read?_write]
  split <;> rfl

/-- The bytes at b after a word is stored at 4k, lane by lane (20_memory.md rule R66). -/
theorem State.fbufByte_writeFbufWord (s : State) (k b : Nat) (w : Word) :
    (s.writeFbufWord k w).fbufByte b =
      if b = 4 * k + 3 then laneByte w 3
      else if b = 4 * k + 2 then laneByte w 2
      else if b = 4 * k + 1 then laneByte w 1
      else if b = 4 * k then laneByte w 0
      else s.fbufByte b := by
  simp only [State.writeFbufWord, State.fbufByte_writeFbufByte]

/-- A word write inside the window keeps the canonical form. -/
theorem State.writeFbufWord_wf {s : State} {k : Nat} (w : Word) (hk : k < 128) (h : s.fbuf.wf = true) :
    (s.writeFbufWord k w).fbuf.wf = true := by
  simp only [State.writeFbufWord, State.writeFbufByte]
  exact Memory.wf_write _ (by unfold Config.fbufBytes; omega)
    (Memory.wf_write _ (by unfold Config.fbufBytes; omega)
      (Memory.wf_write _ (by unfold Config.fbufBytes; omega)
        (Memory.wf_write _ (by unfold Config.fbufBytes; omega) h)))

@[simp] theorem State.fbufBytes_length (s : State) (a n : Nat) : (s.fbufBytes a n).length = n := by
  induction n generalizing a with
  | zero => rfl
  | succ n ih => simp [State.fbufBytes, ih]

theorem State.fbufBytes_zero (s : State) (a : Nat) : s.fbufBytes a 0 = [] := rfl

theorem State.fbufBytes_succ (s : State) (a n : Nat) :
    s.fbufBytes a (n + 1) = s.fbufByte a :: s.fbufBytes (a + 1) n := rfl

/-- Byte k of a range. -/
theorem State.fbufBytes_getElem? (s : State) (a n k : Nat) (h : k < n) :
    (s.fbufBytes a n)[k]? = some (s.fbufByte (a + k)) := by
  induction n generalizing a k with
  | zero => omega
  | succ n ih =>
    cases k with
    | zero => simp [State.fbufBytes]
    | succ k => simp [State.fbufBytes, ih (a + 1) k (by omega), Nat.add_comm, Nat.add_left_comm]

/-- A range reads the same in two states whose FBUF bytes agree on it. -/
theorem State.fbufBytes_congr {s t : State} {a n : Nat} (h : ∀ b, a ≤ b → b < a + n → t.fbufByte b = s.fbufByte b) :
    t.fbufBytes a n = s.fbufBytes a n := by
  induction n generalizing a with
  | zero => rfl
  | succ n ih =>
    simp only [State.fbufBytes]
    rw [h a (Nat.le_refl _) (by omega), ih fun b h1 h2 => h b (by omega) (by omega)]

theorem State.memRead_congr {s t : State} {a n : Nat} (h : ∀ b, a ≤ b → b < a + n → t.fbufByte b = s.fbufByte b) :
    t.memRead a n = s.memRead a n := by
  rw [State.memRead, State.memRead, State.fbufBytes_congr h]

/-! ## Big-endian values -/

theorem bigEndian_append (l : List Byte) (b : Byte) : bigEndian (l ++ [b]) = bigEndian l * 256 + b.toNat := by
  simp [bigEndian]

theorem bigEndian_foldl (l : List Byte) (v : Nat) :
    l.foldl (fun v b => v * 256 + b.toNat) v = v * 256 ^ l.length + bigEndian l := by
  induction l generalizing v with
  | nil => simp [bigEndian]
  | cons b l ih =>
    simp only [bigEndian, List.foldl_cons, List.length_cons] at *
    rw [ih, ih (0 * 256 + b.toNat)]
    ring

/-- The first byte is the most significant (20_memory.md rule R61). -/
theorem bigEndian_cons (b : Byte) (l : List Byte) : bigEndian (b :: l) = b.toNat * 256 ^ l.length + bigEndian l := by
  have := bigEndian_foldl l b.toNat
  simpa [bigEndian] using this

theorem bigEndian_lt (l : List Byte) : bigEndian l < 256 ^ l.length := by
  induction l with
  | nil => simp [bigEndian]
  | cons b l ih =>
    rw [bigEndian_cons, List.length_cons, pow_succ]
    have := b.isLt
    nlinarith [pow_pos (show 0 < 256 by norm_num) l.length]

end Sys2Proof.Machine
end

