-- ==== Sys2Proof/Laws/Ops.lean ====
section
/-! SUPPORT. One lemma per shared operation: everything it can do. -/

namespace Sys2Proof.Machine

/-! ## Registers -/

@[simp] theorem State.readReg_writeReg_same (s : State) (r : RegName) (v : Long) : (s.writeReg r v).readReg r = v := by
  simp [State.readReg, State.writeReg]

theorem State.readReg_writeReg_other (s : State) {r q : RegName} (v : Long) (h : q ≠ r) :
    (s.writeReg r v).readReg q = s.readReg q := by
  have : r.val ≠ q.val := fun e => h (Fin.ext e.symm)
  simp [State.readReg, State.writeReg, this]

theorem State.sameFieldRegsBut_writeReg (s : State) (r : RegName) (v : Long) : SameFieldRegsBut r s (s.writeReg r v) :=
  fun _ h => s.readReg_writeReg_other v h

/-- A cursor value of at most 10 bits is stored whole. -/
theorem State.setCur_toNat (s : State) {n : Nat} (h : n < 1024) : (s.setCur n).cur.toNat = n := by
  simpa using h

theorem State.flen_lt (s : State) : s.flen.toNat < 1024 := s.flen.isLt

theorem State.cur_lt (s : State) : s.cur.toNat < 1024 := s.cur.isLt

/-! ## The fault record -/

/-- The first fault is kept (60_exceptions.md rule R214). -/
theorem State.recordFault_pending {s : State} (h : s.status.fault = true) (c : Cause) (cmd info : Word) :
    s.recordFault c cmd info = s := by
  simp [State.recordFault, h]

theorem State.recordFault_status {s : State} (h : s.status.fault = false) (c : Cause) (cmd info : Word) :
    (s.recordFault c cmd info).status = { s.status with fault := true, cause := c.code } := by
  simp [State.recordFault, h]

theorem State.recordFault_faultCmd {s : State} (h : s.status.fault = false) (c : Cause) (cmd info : Word) :
    (s.recordFault c cmd info).faultCmd = cmd := by
  simp [State.recordFault, h]

theorem State.recordFault_faultInfo {s : State} (h : s.status.fault = false) (c : Cause) (cmd info : Word) :
    (s.recordFault c cmd info).faultInfo = info := by
  simp [State.recordFault, h]

@[simp] theorem State.recordFault_nondec (s : State) (c : Cause) (cmd info : Word) :
    (s.recordFault c cmd info).status.nondec = s.status.nondec := by
  unfold State.recordFault; split <;> rfl

@[simp] theorem State.recordFault_ackv (s : State) (c : Cause) (cmd info : Word) :
    (s.recordFault c cmd info).status.ackv = s.status.ackv := by
  unfold State.recordFault; split <;> rfl

/-- The record is what `FaultRecorded` says. -/
theorem State.recordFault_recorded {s : State} (h : s.status.fault = false) (c : Cause) (cmd info : Word) (n : Int)
    (hn : (info.toNat : Int) = n % 2 ^ 32) : FaultRecorded c.code.toNat cmd n s (s.recordFault c cmd info) := by
  refine ⟨?_, ?_, State.recordFault_faultCmd h _ _ _, ?_, ?_⟩
  · simp [State.recordFault_status h]
  · simp [State.recordFault_status h]
  · rw [State.recordFault_faultInfo h, hn]
  · simp [SameFieldRegs, SameFlags, SameFbuf, SameAbuf, SameHostSide]

/-! ## The range check -/

/-- A command whose range fits does its writes. -/
theorem withinFrame_fits {i : Instr} {e : Nat} {s : State} (h : e ≤ s.flen.toNat) (d : State) :
    withinFrame i e s d = .next d := by
  simp [withinFrame, Nat.not_lt.mpr h]

/-- A command whose range does not fit raises BOUNDS. -/
theorem withinFrame_past {i : Instr} {e : Nat} {s : State} (h : s.flen.toNat < e) (d : State) :
    withinFrame i e s d = .next (s.recordFault .bounds (encode i) (BitVec.ofNat 32 e)) := by
  simp [withinFrame, h, raiseFault]

/-- Everything the range check can answer. -/
theorem withinFrame_cases {i : Instr} {e : Nat} {s d t : State} (h : withinFrame i e s d = .next t) :
    (e ≤ s.flen.toNat ∧ t = d)
      ∨ (s.flen.toNat < e ∧ t = s.recordFault .bounds (encode i) (BitVec.ofNat 32 e)) := by
  rcases Nat.lt_or_ge s.flen.toNat e with hlt | hge
  · rw [withinFrame_past hlt] at h
    exact .inr ⟨hlt, by injection h with h; exact h.symm⟩
  · rw [withinFrame_fits hge] at h
    exact .inl ⟨hge, by injection h with h; exact h.symm⟩

/-- The range check always answers a next state. -/
theorem withinFrame_next (i : Instr) (e : Nat) (s d : State) : ∃ t, withinFrame i e s d = .next t := by
  rcases Nat.lt_or_ge s.flen.toNat e with h | h
  · exact ⟨_, withinFrame_past h d⟩
  · exact ⟨_, withinFrame_fits h d⟩

/-- FAULT_INFO of a BOUNDS fault: the end address mod 2^32. -/
theorem ofNat_info (e : Nat) : (((BitVec.ofNat 32 e).toNat : Nat) : Int) = (e : Int) % 2 ^ 32 := by
  simp

/-- FAULT_INFO of a NEGSKIP fault: the negative count mod 2^32. -/
theorem ofInt_info (n : Int) : (((BitVec.ofInt 32 n).toNat : Nat) : Int) = n % 2 ^ 32 := by
  have := Int.emod_nonneg n (show (2 ^ 32 : Int) ≠ 0 by norm_num)
  simpa [BitVec.toNat_ofInt] using this

/-! ## The reset input -/

theorem State.releaseReset_of_asserted {s : State} (h : s.inReset = true) :
    s.releaseReset = { State.afterReset s.crcCfg (s.epoch + 1) with busQueue := s.busQueue, busReads := s.busReads } := by
  simp [State.releaseReset, h]

theorem State.releaseReset_of_released {s : State} (h : s.inReset = false) : s.releaseReset = s := by
  simp [State.releaseReset, h]

end Sys2Proof.Machine
end

