-- ==== Sys2Proof/Laws/Exec.lean ====
section
/-! SUPPORT. What a command can do at all: either it is the fault record, or it writes field registers, CUR, CRC, ABUF,
NONDEC and ACKV only. -/

namespace Sys2Proof.Machine

/-- t differs from s in what a completing command may write, and in nothing else. -/
def Completes (s t : State) : Prop :=
  t = { s with
        f := t.f, cur := t.cur, crc := t.crc, abuf := t.abuf
        status := { s.status with nondec := t.status.nondec, ackv := t.status.ackv } }

theorem Completes.refl (s : State) : Completes s s := rfl

theorem completes_writeReg (s : State) (r : RegName) (v : Long) : Completes s (s.writeReg r v) := rfl

theorem completes_setCur (s : State) (n : Nat) : Completes s (s.setCur n) := rfl

theorem completes_setCrc (s : State) (c : Half) : Completes s (s.setCrc c) := rfl

theorem completes_readAtCursor (s : State) (r : RegName) (v : Long) (n : Nat) :
    Completes s ((s.writeReg r v).setCur n) := rfl

theorem completes_ximei (s : State) (r : RegName) (v : Long) (c : Bool) (n : Nat) :
    Completes s (((s.writeReg r v).setNondecIf c).setCur n) := rfl

theorem completes_ack (s : State) (b : Vector Byte 10) : Completes s (s.setAbuf b).setAckv := rfl

/-- The range check either completes or records BOUNDS. -/
theorem withinFrame_completes {i : Instr} {e : Nat} {s d t : State} (hd : Completes s d)
    (h : withinFrame i e s d = .next t) :
    Completes s t ∨ ∃ info, t = s.recordFault .bounds (encode i) info := by
  rcases withinFrame_cases h with ⟨-, rfl⟩ | ⟨-, rfl⟩
  · exact .inl hd
  · exact .inr ⟨_, rfl⟩

/-- Everything a command can do: complete, or record BOUNDS, or, SKIPR only, record NEGSKIP. -/
theorem exec_cases {i : Instr} {s t : State} (h : exec i s = .next t) :
    Completes s t
      ∨ (∃ info, t = s.recordFault .bounds (encode i) info)
      ∨ ((∃ r k, i = .skipr r k) ∧ ∃ info, t = s.recordFault .negskip (encode i) info) := by
  cases i with
  | seek imm => exact (withinFrame_completes (completes_setCur s _) h).imp_right .inl
  | skip imm => exact (withinFrame_completes (completes_setCur s _) h).imp_right .inl
  | skipr r k =>
    simp only [exec, execSkipr] at h
    split at h
    · injection h with h
      exact .inr (.inr ⟨⟨r, k, rfl⟩, _, h.symm⟩)
    · exact (withinFrame_completes (completes_setCur s _) h).imp_right .inl
  | tail imm =>
    injection h with h
    subst h
    left
    split
    · exact completes_setCur s _
    · exact Completes.refl s
  | avail rd => injection h with h; subst h; exact .inl (completes_writeReg s _ _)
  | rdu8 rd => exact (withinFrame_completes (completes_readAtCursor s _ _ _) h).imp_right .inl
  | rdu16 rd => exact (withinFrame_completes (completes_readAtCursor s _ _ _) h).imp_right .inl
  | rdu32 rd => exact (withinFrame_completes (completes_readAtCursor s _ _ _) h).imp_right .inl
  | movi rd imm => injection h with h; subst h; exact .inl (completes_writeReg s _ _)
  | xbf rd rs1 pos width => injection h with h; subst h; exact .inl (completes_writeReg s _ _)
  | xsgn rd rs1 rs2 pos => injection h with h; subst h; exact .inl (completes_writeReg s _ _)
  | xcell rd rs1 rs2 => injection h with h; subst h; exact .inl (completes_writeReg s _ _)
  | xtime rd => exact (withinFrame_completes (completes_readAtCursor s _ _ _) h).imp_right .inl
  | ximei rd => exact (withinFrame_completes (completes_ximei s _ _ _ _) h).imp_right .inl
  | crcinit => injection h with h; subst h; exact .inl (completes_setCrc s _)
  | crci b => injection h with h; subst h; exact .inl (completes_setCrc s _)
  | crcr r => injection h with h; subst h; exact .inl (completes_setCrc s _)
  | crcm r n => exact (withinFrame_completes (completes_setCrc s _) h).imp_right .inl
  | crcrd rd => injection h with h; subst h; exact .inl (completes_writeReg s _ _)
  | ack a b => injection h with h; subst h; exact .inl (completes_ack s _)

end Sys2Proof.Machine
end

