-- ==== Sys2Proof/Laws/HostMap.lean ====
section
/-! SUPPORT. The host address map and what a host access can do (20_memory.md rules R64 to R68). -/

namespace Sys2Proof.Machine

/-- A & 0xFFC is the multiple of 4 at or below A (20_memory.md rule R65). -/
theorem wordAddr_eq (a : HostAddr) : wordAddr a = a.toNat / 4 * 4 := by
  have e : wordAddr a = a.toNat &&& 4092 := by rw [wordAddr, BitVec.toNat_and]; rfl
  have hlt := a.isLt
  have hd : (a.toNat &&& 4092) / 4 = a.toNat / 4 &&& 1023 := Nat.and_div_two_pow (n := 2)
  have hk : a.toNat / 4 &&& 1023 = a.toNat / 4 % 1024 := Nat.and_two_pow_sub_one_eq_mod (a.toNat / 4) 10
  have hm : (a.toNat &&& 4092) % 4 = a.toNat % 4 &&& 0 := Nat.and_mod_two_pow (n := 2)
  rw [Nat.and_zero] at hm
  omega

theorem wordAddr_lt (a : HostAddr) : wordAddr a < 4096 := (a &&& 0xFFC).isLt

/-- What a control register's word number names is no buffer word and no field register. -/
theorem controlReg_ne (n k : Nat) (i : RegName) :
    controlReg n ≠ .fbufWord k ∧ controlReg n ≠ .abufWord k ∧ controlReg n ≠ .fieldLow i ∧ controlReg n ≠ .fieldHigh i := by
  unfold controlReg
  split <;> simp

/-- An FBUF word number is inside the window. -/
theorem hostReg_fbufWord {a : HostAddr} {k : Nat} (h : hostReg a = .fbufWord k) : k < 128 := by
  unfold hostReg fieldHalf at h
  split_ifs at h
  · exact absurd h (controlReg_ne _ _ 0).1
  · injection h with h
    omega

/-- Two addresses of one word name one register. -/
theorem hostReg_congr {a b : HostAddr} (h : a.toNat / 4 = b.toNat / 4) : hostReg a = hostReg b := by
  have : wordAddr a = wordAddr b := by rw [wordAddr_eq, wordAddr_eq, h]
  simp only [hostReg, this]

/-- A word that CMD's address names. -/
theorem hostReg_cmd : hostReg 0x008 = .cmd := by decide

/-- Everything a host write can do. -/
theorem hostWrite_cases {a : HostAddr} {w : Word} {s t : State} (h : hostWrite a w s = .next t) :
    (hostReg a = .cmd ∧ commandWrite w s = .next t)
      ∨ (hostReg a = .ctrl ∧ t = s.writeCtrl w)
      ∨ (hostReg a = .status ∧ t = s.writeStatus w)
      ∨ (hostReg a = .flen ∧ t = s.writeFlen w)
      ∨ (∃ i, hostReg a = .fieldLow i ∧ t = s.writeFieldLow i w)
      ∨ (∃ i, hostReg a = .fieldHigh i ∧ t = s.writeFieldHigh i w)
      ∨ (∃ k, hostReg a = .fbufWord k ∧ t = s.writeFbufWord k w)
      ∨ t = s := by
  unfold hostWrite at h
  split at h <;> simp_all

/-- Everything a CMD write can do. -/
theorem commandWrite_cases {w : Word} {s t : State} (h : commandWrite w s = .next t) :
    (s.status.fault = true ∧ t = s)
      ∨ (s.status.fault = false ∧ (∃ e, decode w = .error e) ∧ t = s.recordFault .illegal w 0)
      ∨ (s.status.fault = false ∧ ∃ i, decode w = .ok i ∧ exec i s = .next t) := by
  unfold commandWrite at h
  split at h
  · rename_i hf
    injection h with h
    exact .inl ⟨hf, h.symm⟩
  · rename_i hf
    have hf : s.status.fault = false := by simpa using hf
    split at h
    · rename_i e hd
      injection h with h
      exact .inr (.inl ⟨hf, ⟨e, hd⟩, h.symm⟩)
    · rename_i i hd
      exact .inr (.inr ⟨hf, i, hd, h⟩)

end Sys2Proof.Machine
end

