-- ==== Sys2Proof/Laws/Operands.lean ====
section
/-! SUPPORT. What the operand forms, the packed values and the formats are as numbers; the frame of each shape of
command. -/

namespace Sys2Proof

/-! ## Formats as numbers -/

theorem formatR_toNat (op : Opcode) (d a b : RegName) :
    (formatR op d a b).toNat = op.code.toNat * 2 ^ 24 + d.val * 2 ^ 21 + a.val * 2 ^ 18 + b.val * 2 ^ 15 := by
  have := op.code.isLt
  have := d.isLt
  have := a.isLt
  have := b.isLt
  simp [formatR]
  omega

theorem formatI_toNat (op : Opcode) (d a : RegName) (imm : Half) :
    (formatI op d a imm).toNat = op.code.toNat * 2 ^ 24 + d.val * 2 ^ 21 + a.val * 2 ^ 18 + imm.toNat := by
  have := op.code.isLt
  have := d.isLt
  have := a.isLt
  have := imm.isLt
  simp [formatI]
  omega

theorem formatX_toNat (op : Opcode) (d a b : RegName) (w p : BitVec 6) :
    (formatX op d a b w p).toNat
      = op.code.toNat * 2 ^ 24 + d.val * 2 ^ 21 + a.val * 2 ^ 18 + b.val * 2 ^ 15 + w.toNat * 2 ^ 6 + p.toNat := by
  have := op.code.isLt
  have := d.isLt
  have := a.isLt
  have := b.isLt
  have := w.isLt
  have := p.isLt
  simp [formatX]
  omega

namespace Machine

/-! ## The frame of each shape of command -/

theorem onlyCursor_setCur (s : State) (n : Nat) : OnlyCursor s (s.setCur n) := by
  simp [OnlyCursor, SameFieldRegs, SameFlags, SameAbuf, SameOutsideCommands, SameFbuf, SameHostSide]

theorem onlyFieldReg_writeReg (s : State) (r : RegName) (v : Long) : OnlyFieldReg r s (s.writeReg r v) := by
  refine ⟨s.sameFieldRegsBut_writeReg r v, ?_⟩
  simp [SameFlags, SameAbuf, SameOutsideCommands, SameFbuf, SameHostSide]

theorem onlyFieldRegAndCursor_read (s : State) (r : RegName) (v : Long) (n : Nat) :
    OnlyFieldRegAndCursor r s ((s.writeReg r v).setCur n) := by
  refine ⟨fun q h => by simpa using s.sameFieldRegsBut_writeReg r v q h, ?_⟩
  simp [SameFlags, SameAbuf, SameOutsideCommands, SameFbuf, SameHostSide]

theorem onlyCrc_setCrc (s : State) (c : Half) : OnlyCrc s (s.setCrc c) := by
  simp [OnlyCrc, SameFieldRegs, SameFlags, SameAbuf, SameOutsideCommands, SameFbuf, SameHostSide]

/-- A command that is the range check raises BOUNDS with the end address when its range passes FLEN. -/
theorem raisesBounds_of_past {i : Instr} {e : Nat} {s d : State} (hx : exec i s = withinFrame i e s d)
    (h : s.flen.toNat < e) : RaisesIfNonePending i 1 e s := by
  intro hf
  exact ⟨_, hx.trans (withinFrame_past h d), State.recordFault_recorded hf .bounds _ _ _ (ofNat_info e)⟩

/-- The fault record does not look at FBUF. -/
theorem State.recordFault_withFbuf (s : State) (c : Cause) (cmd info : Word) (m : Memory) (e : Nat) :
    (s.withFbuf m e).recordFault c cmd info = (s.recordFault c cmd info).withFbuf m e := by
  unfold State.recordFault
  cases h : s.status.fault
  · simp [h]
    rfl
  · simp [h]

/-! ## Parts of values -/

theorem lowByte_eq (v : Long) : lowByte v = BitVec.ofNat 8 v.toNat := by
  apply BitVec.eq_of_toNat_eq
  simp [lowByte]

theorem lowHalf_eq (v : Long) : lowHalf v = BitVec.ofNat 16 v.toNat := by
  apply BitVec.eq_of_toNat_eq
  simp [lowHalf]

theorem highByteOf_toNat (v : Half) : (highByteOf v).toNat = v.toNat / 2 ^ 8 := by
  have := v.isLt
  simp [highByteOf, Nat.shiftRight_eq_div_pow]
  omega

theorem lowByteOf_toNat (v : Half) : (lowByteOf v).toNat = v.toNat % 2 ^ 8 := by simp [lowByteOf]

/-- XSGN's result as a signed integer. -/
theorem applySign_toInt (v : Long) (b : Bool) :
    (applySign (lowWord v) b).toInt = if b then ((v.toNat % 2 ^ 32 : Nat) : Int) else -((v.toNat % 2 ^ 32 : Nat) : Int) := by
  have hv := v.isLt
  cases b
  · simp only [applySign, lowWord, Bool.false_eq_true, if_false]
    rw [BitVec.toInt_neg]
    simp [BitVec.toInt_eq_toNat_cond, Int.bmod_def]
    omega
  · simp [applySign, lowWord, BitVec.toInt_eq_toNat_cond]
    omega

/-- Or of parts that do not overlap is their sum. -/
theorem or_eq_add (a b n : Nat) (h : b < 2 ^ n) : a * 2 ^ n ||| b = a * 2 ^ n + b := by
  rw [← Nat.shiftLeft_eq, Nat.shiftLeft_add_eq_or_of_lt h]

/-- A part in its place, when it fits. -/
theorem part_toNat (b : Byte) (k : Nat) (hk : k ≤ 40) :
    b.toNat % 2 ^ 64 * 2 ^ k % 2 ^ 64 = b.toNat * 2 ^ k := by
  have hb := b.isLt
  have : 2 ^ k ≤ 2 ^ 40 := Nat.pow_le_pow_right (by norm_num) hk
  rw [Nat.mod_eq_of_lt (show b.toNat < 2 ^ 64 by omega), Nat.mod_eq_of_lt (by nlinarith)]

/-- The packed date/time as the sum of its parts. -/
theorem packTime_toNat (b0 b1 b2 b3 b4 b5 : Byte) :
    (packTime b0 b1 b2 b3 b4 b5).toNat =
      (2000 + b0.toNat) * 2 ^ 40 + b1.toNat * 2 ^ 32 + b2.toNat * 2 ^ 24 + b3.toNat * 2 ^ 16 + b4.toNat * 2 ^ 8
        + b5.toNat := by
  have h0 := b0.isLt
  have h1 := b1.isLt
  have h2 := b2.isLt
  have h3 := b3.isLt
  have h4 := b4.isLt
  have h5 := b5.isLt
  unfold packTime
  simp only [BitVec.toNat_or, BitVec.toNat_shiftLeft, BitVec.toNat_add, BitVec.toNat_setWidth, Nat.shiftLeft_eq]
  have e0 : ((2000 : BitVec 64).toNat + b0.toNat % 2 ^ 64) % 2 ^ 64 * 2 ^ 40 % 2 ^ 64 = (2000 + b0.toNat) * 2 ^ 40 := by
    rw [show (2000 : BitVec 64).toNat = 2000 by rfl]
    omega
  have e5 : b5.toNat % 2 ^ 64 = b5.toNat := Nat.mod_eq_of_lt (by omega)
  rw [e0, part_toNat b1 32 (by norm_num), part_toNat b2 24 (by norm_num), part_toNat b3 16 (by norm_num),
    part_toNat b4 8 (by norm_num), e5]
  have a1 := or_eq_add (2000 + b0.toNat) (b1.toNat * 2 ^ 32) 40 (by omega)
  have a2 := or_eq_add ((2000 + b0.toNat) * 2 ^ 8 + b1.toNat) (b2.toNat * 2 ^ 24) 32 (by omega)
  have a3 := or_eq_add (((2000 + b0.toNat) * 2 ^ 8 + b1.toNat) * 2 ^ 8 + b2.toNat) (b3.toNat * 2 ^ 16) 24 (by omega)
  have a4 := or_eq_add ((((2000 + b0.toNat) * 2 ^ 8 + b1.toNat) * 2 ^ 8 + b2.toNat) * 2 ^ 8 + b3.toNat)
    (b4.toNat * 2 ^ 8) 16 (by omega)
  have a5 := or_eq_add (((((2000 + b0.toNat) * 2 ^ 8 + b1.toNat) * 2 ^ 8 + b2.toNat) * 2 ^ 8 + b3.toNat) * 2 ^ 8
    + b4.toNat) b5.toNat 8 (by omega)
  rw [a1, show (2000 + b0.toNat) * 2 ^ 40 + b1.toNat * 2 ^ 32 = ((2000 + b0.toNat) * 2 ^ 8 + b1.toNat) * 2 ^ 32 by ring,
    a2, show ((2000 + b0.toNat) * 2 ^ 8 + b1.toNat) * 2 ^ 32 + b2.toNat * 2 ^ 24
      = (((2000 + b0.toNat) * 2 ^ 8 + b1.toNat) * 2 ^ 8 + b2.toNat) * 2 ^ 24 by ring,
    a3, show (((2000 + b0.toNat) * 2 ^ 8 + b1.toNat) * 2 ^ 8 + b2.toNat) * 2 ^ 24 + b3.toNat * 2 ^ 16
      = ((((2000 + b0.toNat) * 2 ^ 8 + b1.toNat) * 2 ^ 8 + b2.toNat) * 2 ^ 8 + b3.toNat) * 2 ^ 16 by ring,
    a4, show ((((2000 + b0.toNat) * 2 ^ 8 + b1.toNat) * 2 ^ 8 + b2.toNat) * 2 ^ 8 + b3.toNat) * 2 ^ 16 + b4.toNat * 2 ^ 8
      = (((((2000 + b0.toNat) * 2 ^ 8 + b1.toNat) * 2 ^ 8 + b2.toNat) * 2 ^ 8 + b3.toNat) * 2 ^ 8 + b4.toNat) * 2 ^ 8 by
        ring,
    a5]

/-- The identifier's low 60 bits. -/
theorem packImei_toNat (v : Nat) : (packImei v).toNat = v % 2 ^ 60 := by
  unfold packImei
  rw [BitVec.toNat_and]
  have : (0x0FFFFFFFFFFFFFFF : BitVec 64).toNat = 2 ^ 60 - 1 := by decide
  rw [this, Nat.and_two_pow_sub_one_eq_mod, BitVec.toNat_ofNat]
  omega

theorem imeiDigit_toNat (v : Long) (k : Nat) (hk : k < 15) :
    (imeiDigit v k).toNat = v.toNat / 2 ^ (4 * (14 - k)) % 16 := by
  simp only [imeiDigit, BitVec.extractLsb'_toNat, Nat.shiftRight_eq_div_pow]
  rw [show 56 - 4 * k = 4 * (14 - k) by omega]

theorem highByte_lowByte (v : Half) : (highByteOf v).toNat * 256 + (lowByteOf v).toNat = v.toNat := by
  rw [highByteOf_toNat, lowByteOf_toNat]
  omega

theorem State.memRead_two (s : State) (a : Nat) :
    s.memRead a 2 = (s.fbufByte a).toNat * 256 + (s.fbufByte (a + 1)).toNat := by
  simp [State.memRead, State.fbufBytes, bigEndian]

theorem State.memRead_four (s : State) (a : Nat) :
    s.memRead a 4 = (((s.fbufByte a).toNat * 256 + (s.fbufByte (a + 1)).toNat) * 256 + (s.fbufByte (a + 2)).toNat) * 256
      + (s.fbufByte (a + 3)).toNat := by
  simp [State.memRead, State.fbufBytes, bigEndian, Nat.add_assoc]

/-- A read of n bytes is below 256^n. -/
theorem State.memRead_lt (s : State) (a n : Nat) : s.memRead a n < 256 ^ n := by
  have := bigEndian_lt (s.fbufBytes a n)
  rwa [State.fbufBytes_length] at this

/-- A range of FBUF as the bytes at its addresses. -/
theorem State.fbufBytes_eq_map (s : State) (a n : Nat) :
    s.fbufBytes a n = (List.range n).map fun k => s.fbufByte (a + k) := by
  induction n generalizing a with
  | zero => rfl
  | succ n ih =>
    rw [State.fbufBytes_succ, ih, List.range_succ_eq_map]
    simp only [List.map_cons, List.map_map, Nat.add_zero]
    congr 1
    apply List.map_congr_left
    intro k _
    simp only [Function.comp]
    congr 1
    omega

end Machine

end Sys2Proof
end

