-- ==== Sys2Proof/Laws/PerInstr.lean ====
section
/-! SUPPORT. A family of lemmas, one per command: its word is selected by its row (30_encoding.md rule R96). -/

namespace Sys2Proof.Laws.EncodeSelects

/-- The word of a command is one its own row selects: OP is the row's and every must-be-0 bit is 0. -/
def Statement (i : Instr) : Prop := i.opcode.selects (encode i) = true

theorem seek (imm : Half) : Statement (.seek imm) := by
  simp [Statement, Instr.opcode, encode, Opcode.selects_iff, piece_literal, Opcode.mask, formatI_pieces]

theorem skip (imm : Half) : Statement (.skip imm) := by
  simp [Statement, Instr.opcode, encode, Opcode.selects_iff, piece_literal, Opcode.mask, formatI_pieces]

theorem skipr (rs1 : RegName) (imm : Half) : Statement (.skipr rs1 imm) := by
  simp [Statement, Instr.opcode, encode, Opcode.selects_iff, piece_literal, Opcode.mask, formatI_pieces]

theorem tail (imm : Half) : Statement (.tail imm) := by
  simp [Statement, Instr.opcode, encode, Opcode.selects_iff, piece_literal, Opcode.mask, formatI_pieces]

theorem avail (rd : RegName) : Statement (.avail rd) := by
  simp [Statement, Instr.opcode, encode, Opcode.selects_iff, piece_literal, Opcode.mask, formatR_pieces]

theorem rdu8 (rd : RegName) : Statement (.rdu8 rd) := by
  simp [Statement, Instr.opcode, encode, Opcode.selects_iff, piece_literal, Opcode.mask, formatR_pieces]

theorem rdu16 (rd : RegName) : Statement (.rdu16 rd) := by
  simp [Statement, Instr.opcode, encode, Opcode.selects_iff, piece_literal, Opcode.mask, formatR_pieces]

theorem rdu32 (rd : RegName) : Statement (.rdu32 rd) := by
  simp [Statement, Instr.opcode, encode, Opcode.selects_iff, piece_literal, Opcode.mask, formatR_pieces]

theorem movi (rd : RegName) (imm : Half) : Statement (.movi rd imm) := by
  simp [Statement, Instr.opcode, encode, Opcode.selects_iff, piece_literal, Opcode.mask, formatI_pieces]

theorem xbf (rd : RegName) (rs1 : RegName) (pos : BitVec 6) (width : Nat) : Statement (.xbf rd rs1 pos width) := by
  simp [Statement, Instr.opcode, encode, Opcode.selects_iff, piece_literal, Opcode.mask, formatX_pieces]

theorem xsgn (rd : RegName) (rs1 : RegName) (rs2 : RegName) (pos : BitVec 6) : Statement (.xsgn rd rs1 rs2 pos) := by
  simp [Statement, Instr.opcode, encode, Opcode.selects_iff, piece_literal, Opcode.mask, formatX_pieces]

theorem xcell (rd : RegName) (rs1 : RegName) (rs2 : RegName) : Statement (.xcell rd rs1 rs2) := by
  simp [Statement, Instr.opcode, encode, Opcode.selects_iff, piece_literal, Opcode.mask, formatR_pieces]

theorem xtime (rd : RegName) : Statement (.xtime rd) := by
  simp [Statement, Instr.opcode, encode, Opcode.selects_iff, piece_literal, Opcode.mask, formatR_pieces]

theorem ximei (rd : RegName) : Statement (.ximei rd) := by
  simp [Statement, Instr.opcode, encode, Opcode.selects_iff, piece_literal, Opcode.mask, formatR_pieces]

theorem crcinit : Statement (.crcinit) := by
  simp [Statement, Instr.opcode, encode, Opcode.selects_iff, piece_literal, Opcode.mask, formatN_pieces]

theorem crci (imm8 : Byte) : Statement (.crci imm8) := by
  simp [Statement, Instr.opcode, encode, Opcode.selects_iff, piece_literal, Opcode.mask, formatI_pieces]
  omega

theorem crcr (rs1 : RegName) : Statement (.crcr rs1) := by
  simp [Statement, Instr.opcode, encode, Opcode.selects_iff, piece_literal, Opcode.mask, formatR_pieces]

theorem crcm (rs1 : RegName) (count : Half) : Statement (.crcm rs1 count) := by
  simp [Statement, Instr.opcode, encode, Opcode.selects_iff, piece_literal, Opcode.mask, formatI_pieces]

theorem crcrd (rd : RegName) : Statement (.crcrd rd) := by
  simp [Statement, Instr.opcode, encode, Opcode.selects_iff, piece_literal, Opcode.mask, formatR_pieces]

theorem ack (rs1 : RegName) (rs2 : RegName) : Statement (.ack rs1 rs2) := by
  simp [Statement, Instr.opcode, encode, Opcode.selects_iff, piece_literal, Opcode.mask, formatR_pieces]

end Sys2Proof.Laws.EncodeSelects
end

