-- ==== Sys2Proof/Laws/Step.lean ====
section
/-! SUPPORT. The host address map by word number, and everything a step can do. -/

namespace Sys2Proof.Machine

/-! ## The address map by word number -/

/-- The map of 20_memory.md rule R64, by word number A / 4. -/
theorem hostReg_word (a : HostAddr) :
    hostReg a =
      if a.toNat / 4 < 16 then controlReg (a.toNat / 4)
      else if a.toNat / 4 < 32 then fieldHalf (a.toNat / 4 - 16)
      else if a.toNat / 4 < 192 then .reserved
      else if a.toNat / 4 < 195 then .abufWord (a.toNat / 4 - 192)
      else if a.toNat / 4 < 256 then .reserved
      else if a.toNat / 4 < 384 then .fbufWord (a.toNat / 4 - 256)
      else .reserved := by
  unfold hostReg
  rw [wordAddr_eq]
  generalize a.toNat / 4 = n
  rw [show n * 4 / 4 = n by omega]
  by_cases h1 : n < 16
  · rw [if_pos (show n * 4 < 0x40 by omega), if_pos h1]
  rw [if_neg (show ¬ n * 4 < 0x40 by omega), if_neg h1]
  by_cases h2 : n < 32
  · rw [if_pos (show n * 4 < 0x80 by omega), if_pos h2, show (n * 4 - 0x40) / 4 = n - 16 by omega]
  rw [if_neg (show ¬ n * 4 < 0x80 by omega), if_neg h2]
  by_cases h3 : n < 192
  · rw [if_pos (show n * 4 < 0x300 by omega), if_pos h3]
  rw [if_neg (show ¬ n * 4 < 0x300 by omega), if_neg h3]
  by_cases h4 : n < 195
  · rw [if_pos (show n * 4 < 0x30C by omega), if_pos h4, show (n * 4 - 0x300) / 4 = n - 192 by omega]
  rw [if_neg (show ¬ n * 4 < 0x30C by omega), if_neg h4]
  by_cases h5 : n < 256
  · rw [if_pos (show n * 4 < 0x400 by omega), if_pos h5]
  rw [if_neg (show ¬ n * 4 < 0x400 by omega), if_neg h5]
  by_cases h6 : n < 384
  · rw [if_pos (show n * 4 < 0x600 by omega), if_pos h6, show (n * 4 - 0x400) / 4 = n - 256 by omega]
  rw [if_neg (show ¬ n * 4 < 0x600 by omega), if_neg h6]

/-- The word numbers at which a register stands. -/
def standsAt (r : HostReg) (n : Nat) : Prop :=
  match r with
  | .ctrl => n = 0
  | .status => n = 1
  | .cmd => n = 2
  | .flen => n = 3
  | .cur => n = 4
  | .crc => n = 5
  | .faultCmd => n = 6
  | .faultInfo => n = 7
  | .id => n = 8
  | .fieldLow i => n = 16 + 2 * i.val
  | .fieldHigh i => n = 17 + 2 * i.val
  | .abufWord k => k < 3 ∧ n = 192 + k
  | .fbufWord k => k < 128 ∧ n = 256 + k
  | .reserved => (9 ≤ n ∧ n ≤ 15) ∨ (32 ≤ n ∧ n ≤ 191) ∨ (195 ≤ n ∧ n ≤ 255) ∨ 384 ≤ n

theorem controlReg_standsAt (n : Nat) (h : n < 16) : standsAt (controlReg n) n := by
  interval_cases n <;> simp [controlReg, standsAt]

/-- An address names the register that stands at its word number. -/
theorem hostReg_standsAt (a : HostAddr) : standsAt (hostReg a) (a.toNat / 4) := by
  rw [hostReg_word]
  generalize a.toNat / 4 = n
  split_ifs
  · exact controlReg_standsAt n (by assumption)
  · unfold fieldHalf
    split <;> simp [standsAt] <;> omega
  all_goals (simp only [standsAt]; omega)

theorem standsAt_of_hostReg {a : HostAddr} {r : HostReg} (h : hostReg a = r) : standsAt r (a.toNat / 4) :=
  h ▸ hostReg_standsAt a

/-! ## Bus lanes as numbers -/

theorem lanes_toNat (a b c d : Byte) :
    (lanes a b c d).toNat = a.toNat + b.toNat * 2 ^ 8 + c.toNat * 2 ^ 16 + d.toNat * 2 ^ 24 := by
  have := a.isLt
  have := b.isLt
  have := c.isLt
  have := d.isLt
  simp only [lanes, BitVec.toNat_append]
  rw [← Nat.shiftLeft_add_eq_or_of_lt (by omega), ← Nat.shiftLeft_add_eq_or_of_lt (by omega),
    ← Nat.shiftLeft_add_eq_or_of_lt (by omega), Nat.shiftLeft_eq, Nat.shiftLeft_eq, Nat.shiftLeft_eq]
  omega

theorem laneByte_toNat (w : Word) (k : Nat) : (laneByte w k).toNat = w.toNat / 2 ^ (8 * k) % 2 ^ 8 := by
  simp [laneByte, Nat.shiftRight_eq_div_pow]

/-- A word is its four lanes. -/
theorem lanes_laneByte (w : Word) : lanes (laneByte w 0) (laneByte w 1) (laneByte w 2) (laneByte w 3) = w := by
  apply BitVec.eq_of_toNat_eq
  have := w.isLt
  rw [lanes_toNat]
  simp only [laneByte_toNat]
  omega

/-- The lanes of four bytes are those bytes. -/
theorem laneByte_lanes (a b c d : Byte) :
    laneByte (lanes a b c d) 0 = a ∧ laneByte (lanes a b c d) 1 = b ∧ laneByte (lanes a b c d) 2 = c
      ∧ laneByte (lanes a b c d) 3 = d := by
  have := a.isLt
  have := b.isLt
  have := c.isLt
  have := d.isLt
  refine ⟨?_, ?_, ?_, ?_⟩ <;>
    (apply BitVec.eq_of_toNat_eq; rw [laneByte_toNat, lanes_toNat]; omega)

/-! ## Steps -/

theorem step_nil {s : State} (h : s.busQueue = []) : step s = .next s := by simp [step, h]

theorem step_cons {s : State} {e : BusEvent} {rest : List BusEvent} (h : s.busQueue = e :: rest) :
    step s = busEvent e (s.withQueue rest) := by
  simp [step, h]

/-- A write to CMD runs a command. -/
theorem hostWrite_cmd {a : HostAddr} (h : a.toNat / 4 = 2) (w : Word) (s : State) :
    hostWrite a w s = commandWrite w s := by
  have : hostReg a = .cmd := by
    rw [hostReg_word, h]
    rfl
  simp [hostWrite, this]

/-- Everything a step can do. -/
theorem step_cases {s t : State} (h : step s = .next t) :
    (s.busQueue = [] ∧ t = s)
      ∨ (∃ a w rest, s.busQueue = .write a w :: rest ∧ s.inReset = false ∧ hostWrite a w (s.withQueue rest) = .next t)
      ∨ (∃ a rest, s.busQueue = .read a :: rest ∧ s.inReset = false
          ∧ t = (s.withQueue rest).answerRead (hostRead (s.withQueue rest) a))
      ∨ (∃ rest, s.busQueue = .resetAssert :: rest ∧ t = (s.withQueue rest).assertReset)
      ∨ (∃ rest, s.busQueue = .resetRelease :: rest ∧ t = (s.withQueue rest).releaseReset) := by
  cases hq : s.busQueue with
  | nil =>
    rw [step_nil hq] at h
    injection h with h
    exact .inl ⟨rfl, h.symm⟩
  | cons e rest =>
    rw [step_cons hq] at h
    cases e with
    | write a w =>
      simp only [busEvent] at h
      split at h
      · cases h
      · rename_i hr
        exact .inr (.inl ⟨a, w, rest, rfl, by simpa using hr, h⟩)
    | read a =>
      simp only [busEvent] at h
      split at h
      · cases h
      · rename_i hr
        injection h with h
        exact .inr (.inr (.inl ⟨a, rest, rfl, by simpa using hr, h.symm⟩))
    | resetAssert =>
      injection h with h
      exact .inr (.inr (.inr (.inl ⟨rest, rfl, h.symm⟩)))
    | resetRelease =>
      injection h with h
      exact .inr (.inr (.inr (.inr ⟨rest, rfl, h.symm⟩)))

/-- One step, then the others. -/
theorem runSteps_succ {s t : State} (k : Nat) (h : step s = .next t) : runSteps (k + 1) s = runSteps k t := by
  simp only [runSteps, h]

/-- What every step keeps holds after any number of steps. -/
theorem runSteps_induction {P : State → Prop} (hstep : ∀ s t, P s → step s = .next t → P t) {k : Nat} {s t : State}
    (hs : P s) (h : runSteps k s = .next t) : P t := by
  induction k generalizing s with
  | zero =>
    injection h with h
    exact h ▸ hs
  | succ k ih =>
    simp only [runSteps] at h
    split at h
    · rename_i u hu
      exact ih (hstep s u hs hu) h
    · cases h
    · cases h

/-! ## Frames on the bus -/

theorem busWords_length (pad : Byte) : ∀ bytes : List Byte, (busWords pad bytes).length = (bytes.length + 3) / 4
  | [] => rfl
  | [_] => by simp [busWords]
  | [_, _] => by simp [busWords]
  | [_, _, _] => by simp [busWords]
  | _ :: _ :: _ :: _ :: l => by
    simp only [busWords, List.length_cons, busWords_length pad l]
    omega

theorem fbufWrites_length (ws : List Word) : ∀ k, (fbufWrites k ws).length = ws.length := by
  induction ws with
  | nil => intros; rfl
  | cons w ws ih => intro k; simp [fbufWrites, ih]

/-- The address of window word k (20_memory.md rule R66). -/
theorem hostReg_window {k : Nat} (hk : k < 128) : hostReg (BitVec.ofNat 12 (0x400 + 4 * k)) = .fbufWord k := by
  have e : (BitVec.ofNat 12 (0x400 + 4 * k)).toNat / 4 = 256 + k := by
    rw [BitVec.toNat_ofNat]
    omega
  rw [hostReg_word, e, if_neg (by omega), if_neg (by omega), if_neg (by omega), if_neg (by omega), if_neg (by omega),
    if_pos (by omega), show 256 + k - 256 = k by omega]

end Sys2Proof.Machine
end

