-- ==== Sys2Proof/Tests/Slice0.lean ====
section
/-! SUPPORT. Tests of the model's author: every expected value is the spec's (95_test_vectors.md vectors V1 to V136,
30_encoding.md rule R102), and witnesses that the hypotheses of the statements can be met. -/

namespace Sys2Proof.Tests

open Sys2Proof.Machine

/-! ## Small states -/

/-- The default instance after reset with bytes in FBUF from address 0, a frame length and a cursor. -/
def loaded (bytes : List Byte) (flen cur : Nat) : State :=
  { State.reset with
    fbuf := bytes.zipIdx.map fun p => (p.2, p.1)
    flen := BitVec.ofNat 10 flen
    cur := BitVec.ofNat 10 cur }

/-- The bytes of frame FA, the login frame of 95_test_vectors.md section 0. -/
def faBytes : List Byte :=
  [0x78, 0x78, 0x0D, 0x01, 0x01, 0x23, 0x45, 0x67, 0x89, 0x01, 0x23, 0x45, 0x00, 0x01, 0x8C, 0xDD, 0x0D, 0x0A]

/-- Frame FA loaded, with a cursor. -/
def fa (cur : Nat) : State := loaded faBytes 18 cur

/-- A state with the record of V3: BOUNDS, FAULT_CMD 0x10000013, FAULT_INFO 0x13. -/
def pending (s : State) : State := s.recordFault .bounds 0x10000013 0x13

/-- What holds of the next state, if there is one. -/
def gives (r : Result) (p : State → Bool) : Bool :=
  match r with
  | .next t => p t
  | .fault _ => false
  | .refused _ => false

/-- The fault record as the vectors write it: STATUS, FAULT_CMD, FAULT_INFO. -/
def record (status cmd info : Word) (t : State) : Bool :=
  decide (t.statusWord = status) && decide (t.faultCmd = cmd) && decide (t.faultInfo = info)

/-- The state in which the host is about to do these accesses. -/
def doing (events : List BusEvent) (s : State) : State := s.withQueue events

/-- ABUF as a list. -/
def abufList (t : State) : List Byte := t.abuf.toList

/-! ## WellFormed: what the assembler rejects (rule R100) -/

theorem test_wf_refuses_width_zero : Instr.wf (.xbf 6 7 0 0) = false := by decide
theorem test_wf_refuses_width_65 : Instr.wf (.xbf 6 7 0 65) = false := by decide
theorem test_wf_accepts_width_1_and_64 : Instr.wf (.xbf 6 7 63 1) = true ∧ Instr.wf (.xbf 1 2 0 64) = true := by decide

/-! ## Decoding and encoding: the words of rule R102, every constructor -/

theorem test_decode_seek : decodeTableWord 32 0x10000002 = some (.seek 2) := by decide
theorem test_decode_skip : decodeTableWord 32 0x11000002 = some (.skip 2) := by decide
theorem test_decode_skipr : decodeTableWord 32 0x1200000D = some (.skipr 0 13) := by decide
theorem test_decode_tail : decodeTableWord 32 0x13000006 = some (.tail 6) := by decide
theorem test_decode_avail : decodeTableWord 32 0x14E00000 = some (.avail 7) := by decide
theorem test_decode_rdu8 : decodeTableWord 32 0x18200000 = some (.rdu8 1) := by decide
theorem test_decode_rdu16 : decodeTableWord 32 0x19600000 = some (.rdu16 3) := by decide
theorem test_decode_rdu32 : decodeTableWord 32 0x1A800000 = some (.rdu32 4) := by decide
theorem test_decode_movi : decodeTableWord 32 0x20A00013 = some (.movi 5 0x13) := by decide
theorem test_decode_xbf : decodeTableWord 32 0x21DC0240 = some (.xbf 6 7 0 10) := by decide
theorem test_decode_xbf_nibble : decodeTableWord 32 0x21CC00C4 = some (.xbf 6 3 4 4) := by decide
theorem test_decode_xsgn : decodeTableWord 32 0x22B7800B = some (.xsgn 5 5 7 11) := by decide
theorem test_decode_xcell : decodeTableWord 32 0x23570000 = some (.xcell 2 5 6) := by decide
theorem test_decode_xtime : decodeTableWord 32 0x24400000 = some (.xtime 2) := by decide
theorem test_decode_ximei : decodeTableWord 32 0x25400000 = some (.ximei 2) := by decide
theorem test_decode_crcinit : decodeTableWord 32 0x30000000 = some .crcinit := by decide
theorem test_decode_crci : decodeTableWord 32 0x31000005 = some (.crci 5) := by decide
theorem test_decode_crcr : decodeTableWord 32 0x32040000 = some (.crcr 1) := by decide
theorem test_decode_crcm : decodeTableWord 32 0x3310000C = some (.crcm 4 12) := by decide
theorem test_decode_crcrd : decodeTableWord 32 0x34A00000 = some (.crcrd 5) := by decide
theorem test_decode_ack : decodeTableWord 32 0x38058000 = some (.ack 1 3) := by decide

/-- The other way, one word of each format (rule R102). -/
theorem test_encode_formats :
    encode .crcinit = 0x30000000 ∧ encode (.ack 1 3) = 0x38058000 ∧ encode (.skipr 0 5) = 0x12000005
      ∧ encode (.xsgn 4 4 7 10) = 0x2293800A ∧ encode (.xbf 1 2 0 64) = 0x21280FC0 := by decide

/-- V100 to V108: unassigned OP values and set must-be-0 bits are no command (rule R97). -/
theorem test_illegal_words :
    ([0x00000000, 0x15000000, 0xFF000000, 0x10010000, 0x30000001, 0x31000100, 0x38258000, 0x21DC8240, 0x1220000D].map
      (decodeTableWord 32)).all (· == none) = true := by decide

/-- The edges of the unassigned ranges of rule R97 (OP 0x0F, 0x17, 0x1B, 0x1F, 0x26, 0x2F, 0x35, 0x37, 0x39). -/
theorem test_unassigned_edges :
    ([0x0F, 0x15, 0x17, 0x1B, 0x1F, 0x26, 0x2F, 0x35, 0x37, 0x39].map fun op => decodeTableWord 32 (op * 2 ^ 24)).all
      (· == none) = true := by decide

/-! ## The assembler (rules R100, R101) -/

theorem test_assemble_lat :
    assembleLine "  lat F4, F4, F7 ; sign".toList = .ok [.xsgn 4 4 7 10] := by rfl
theorem test_assemble_crc16 : assembleLine "CRC16 F5, F4, 0xC".toList = .ok [.crcinit, .crcm 4 12, .crcrd 5] := by rfl
theorem test_assemble_rejects_width : assembleLine "XBF F0, F1, 0, 65".toList = .error .outOfField := by rfl
theorem test_assemble_rejects_immediate : assembleLine "CRCI 256".toList = .error .outOfField := by rfl

/-! ## The cursor and read commands: V1 to V22 -/

theorem test_V2_seek_to_end : gives (exec (.seek 18) (fa 0)) (fun t => decide (t.cur = 18)) = true := by decide
theorem test_V3_seek_past_end : gives (exec (.seek 19) (fa 0)) (record 0x11 0x10000013 0x13) = true := by decide
theorem test_V4_skip_zero_at_end : gives (exec (.skip 0) (fa 18)) (fun t => decide (t = fa 18)) = true := by decide
theorem test_V5_skip_past_end :
    gives (exec (.skip 3) (fa 16)) (fun t => record 0x11 0x11000003 0x13 t && decide (t.cur = 16)) = true := by decide
theorem test_V9_skipr_counts_exactly :
    gives (exec (.skipr 0 12) ((fa 0).writeReg 0 0xFFFFFFFFFFFFFFFF)) (record 0x11 0x1200000C 0xFFFFFFF3) = true := by
  decide
theorem test_V10_negskip_before_bounds :
    gives (exec (.skipr 0 5) ((fa 18).writeReg 0 3)) (record 0x21 0x12000005 0xFFFFFFFE) = true := by decide
theorem test_V11_tail : gives (exec (.tail 6) (loaded [] 30 20)) (fun t => decide (t.cur = 24)) = true := by decide
theorem test_V12_tail_never_back :
    gives (exec (.tail 6) (loaded [] 30 25)) (fun t => decide (t = loaded [] 30 25)) = true := by decide
theorem test_V14_avail : gives (exec (.avail 7) (fa 4)) (fun t => decide (t.readReg 7 = 0xE)) = true := by decide
theorem test_V15_avail_at_end :
    gives (exec (.avail 7) ((fa 18).writeReg 7 0x55)) (fun t => decide (t.readReg 7 = 0)) = true := by decide
theorem test_V16_rdu8_at_end : gives (exec (.rdu8 0) (fa 18)) (record 0x11 0x18000000 0x13) = true := by decide
theorem test_V20_rdu8 :
    gives (exec (.rdu8 0) (fa 2)) (fun t => decide (t.readReg 0 = 0xD) && decide (t.cur = 3)) = true := by decide
theorem test_V17_rdu16_one_byte_left :
    gives (exec (.rdu16 3) ((fa 17).writeReg 3 7))
      (fun t => record 0x11 0x19600000 0x13 t && decide (t.readReg 3 = 7) && decide (t.cur = 17)) = true := by decide
theorem test_V19_rdu16_odd_address :
    gives (exec (.rdu16 2) (fa 3)) (fun t => decide (t.readReg 2 = 0x101) && decide (t.cur = 5)) = true := by decide
theorem test_V21_rdu32 :
    gives (exec (.rdu32 5) (fa 14)) (fun t => decide (t.readReg 5 = 0x8CDD0D0A) && decide (t.cur = 18)) = true := by
  decide
theorem test_V22_rdu32_two_bytes_left :
    gives (exec (.rdu32 5) (fa 16)) (record 0x11 0x1AA00000 0x14) = true := by decide

/-! ## The extraction commands: V30 to V63 -/

theorem test_V30_movi_no_sign :
    gives (exec (.movi 0 0xFFFF) State.reset) (fun t => decide (t.readReg 0 = 0xFFFF)) = true := by decide
theorem test_V31_movi_clears_high_bits :
    gives (exec (.movi 0 0x13) (State.reset.writeReg 0 0xFFFFFFFFFFFFFFFF)) (fun t => decide (t.readReg 0 = 0x13)) = true := by
  decide
theorem test_V37_xbf_above_bit_63 :
    gives (exec (.xbf 0 1 60 8) (State.reset.writeReg 1 0xF000000000000000)) (fun t => decide (t.readReg 0 = 0xF)) = true := by
  decide
theorem test_V39_xbf_source_is_destination :
    gives (exec (.xbf 1 1 4 4) (State.reset.writeReg 1 0xC8)) (fun t => decide (t.readReg 1 = 0xC)) = true := by decide
theorem test_V42_xsgn_negates :
    gives (exec (.xsgn 4 4 7 10) ((State.reset.writeReg 4 64800000).writeReg 7 0x1923))
      (fun t => decide (t.readReg 4 = 0xFFFFFFFFFC233B00)) = true := by decide
theorem test_V44_xsgn_takes_32_bits :
    gives (exec (.xsgn 0 4 7 10) ((State.reset.writeReg 4 0x1234567803DCC500).writeReg 7 0x0400))
      (fun t => decide (t.readReg 0 = 0x3DCC500)) = true := by decide
theorem test_V52_xcell_corrected :
    gives (exec (.xcell 5 5 6) (((State.reset.writeCtrl 1).writeReg 5 0xABCD1234).writeReg 6 0x1256))
      (fun t => decide (t.readReg 5 = 0x123456)) = true := by decide
/-- Compat mode gives the open parameter, whatever it is (00_scope.md rule R6). -/
theorem test_xcell_compat (r : Long) (h : Config.cellidCompat 0x1234 0x56 = r) :
    gives (exec (.xcell 2 5 6) ((State.reset.writeReg 5 0x1234).writeReg 6 0x56)) (fun t => decide (t.readReg 2 = r)) = true := by
  subst h
  exact decide_eq_true rfl
theorem test_V56_xtime_is_binary :
    gives (exec (.xtime 2) (loaded [0x18, 0x0D, 0x20, 0x17, 0x3C, 0x3C] 6 0))
      (fun t => decide (t.readReg 2 = 0x7E80D20173C3C) && decide (t.cur = 6)) = true := by decide
theorem test_V57_xtime_past_end : gives (exec (.xtime 2) (loaded [] 10 5)) (record 0x11 0x24400000 0xB) = true := by decide
theorem test_V59_ximei_drops_high_nibble :
    gives (exec (.ximei 2) ((fa 4).writeFbufByte 4 0xF1))
      (fun t => decide (t.readReg 2 = 0x123456789012345) && decide (t.cur = 12) && decide (t.statusWord = 0)) = true := by
  decide
theorem test_V60_ximei_nondec :
    gives (exec (.ximei 2) ((fa 4).writeFbufByte 4 0x0A))
      (fun t => decide (t.readReg 2 = 0xA23456789012345) && decide (t.statusWord = 0x100)) = true := by decide

/-- V46 to V49: the sign law in the four quadrants (rule R158). -/
theorem test_V47_lat_lon_quadrant :
    gives (execAll ((Pseudo.lat 0 4 7).expand ++ (Pseudo.lon 1 5 7).expand)
        (((State.reset.writeReg 4 1800000).writeReg 5 1800000).writeReg 7 0x0400))
      (fun t => decide (t.readReg 0 = 0x1B7740) && decide (t.readReg 1 = 0xFFFFFFFFFFE488C0)) = true := by decide

/-! ## CRC and acknowledgment: V70 to V88 -/

theorem test_V70_crcinit :
    gives (exec .crcinit (State.reset.setCrc 0x1234)) (fun t => decide (t.crc = 0xFFFF)) = true := by decide
theorem test_V71_crci : gives (exec (.crci 5) State.reset) (fun t => decide (t.crc = 0x541A)) = true := by decide
theorem test_V73_crci_zero_is_no_nop :
    gives (exec (.crci 0) State.reset) (fun t => decide (t.crc = 0xE1F0)) = true := by decide
theorem test_V75_crcr_low_byte :
    gives (exec (.crcr 1) (State.reset.writeReg 1 0x105)) (fun t => decide (t.crc = 0x541A)) = true := by decide
theorem test_V77_crcm :
    gives (exec (.crcm 4 12) ((fa 0).writeReg 4 2)) (fun t => decide (t.crc = 0x44CE)) = true := by decide +kernel
theorem test_V80_crcm_wraps_nothing :
    gives (exec (.crcm 4 1) ((fa 0).writeReg 4 0xFFFFFFFFFFFFFFFF))
      (fun t => record 0x11 0x33100001 0 t && decide (t.crc = 0xFFFF)) = true := by decide
theorem test_V77_crcrd :
    gives (exec (.crcrd 5) (State.reset.setCrc 0x44CE)) (fun t => decide (t.readReg 5 = 0x8CDD)) = true := by decide
theorem test_V72_crcrd_of_init :
    gives (exec (.crcrd 0) (State.reset.writeReg 0 0x55)) (fun t => decide (t.readReg 0 = 0)) = true := by decide
theorem test_V84_ack :
    gives (exec (.ack 5 3) ((State.reset.writeReg 5 0xABCDEF13).writeReg 3 0x7770001))
      (fun t => decide (abufList t = [0x78, 0x78, 0x05, 0x13, 0x00, 0x01, 0xE9, 0xF1, 0x0D, 0x0A])
        && decide (t.statusWord = 0x200)) = true := by decide +kernel
theorem test_V87_ack_leaves_crc :
    gives (exec (.ack 1 0) (((State.reset.setCrc 0x541A).writeReg 1 0x10).writeReg 0 2))
      (fun t => decide (abufList t = [0x78, 0x78, 0x05, 0x10, 0x00, 0x02, 0x34, 0x0E, 0x0D, 0x0A])
        && decide (t.crc = 0x541A)) = true := by decide +kernel

/-- Another instance: CCITT-FALSE, the golden input of section 2. -/
theorem test_crc_ccitt_false :
    crc16 (CrcCfg.mk 0xFFFF false false 0) [0x05, 0x13, 0x00, 0x01] = 0x3297 := by decide +kernel

/-! ## Faults, discarding and the host interface: V100 to V136 -/

theorem test_V108_illegal_first :
    gives (step (doing [.write 0x008 0x1220000D] ((fa 18).writeReg 0 3))) (record 0x31 0x1220000D 0) = true := by decide
theorem test_V109_discarded :
    gives (step (doing [.write 0x008 0x18000000] (pending (fa 0)))) (fun t => decide (t = pending (fa 0))) = true := by decide
theorem test_V120_flen_hostrange :
    gives (hostWrite 0x00C 0x258 (fa 5)) (fun t => record 0x41 0 0x258 t && decide (t.cur = 5) && decide (t.flen = 18)) = true := by
  decide
theorem test_V121_flen_512 :
    gives (hostWrite 0x00C 0x200 (fa 5)) (fun t => decide (t.flen = 512) && decide (t.cur = 0)) = true := by decide
theorem test_V123_flen_keeps_first_fault :
    gives (hostWrite 0x00C 0x258 (pending (fa 5))) (fun t => decide (t = pending (fa 5))) = true := by decide
/-- V124 to V126: FAULT, NONDEC and ACKV are write-1-to-clear, each on its own. -/
theorem test_V126_status_w1c :
    gives (hostWrite 0x004 0x200 ((pending (fa 5)).setNondecIf true).setAckv) (fun t => decide (t.statusWord = 0x111)) = true := by
  decide
theorem test_V127_irq :
    gives (hostWrite 0x000 0x2 (pending (fa 5))) (fun t => decide (hostRead t 0x004 = 0x411) && t.irq) = true := by decide
theorem test_V128_clear_fault :
    gives (hostWrite 0x004 0x1 ((pending (fa 5)).writeCtrl 2))
      (fun t => decide (hostRead t 0x004 = 0) && decide (hostRead t 0x018 = 0x10000013) && decide (hostRead t 0x01C = 0x13)) = true := by
  decide
theorem test_V129_fbuf_lanes :
    hostRead (fa 0) 0x400 = 0x010D7878 ∧ hostRead (fa 0) 0x404 = 0x67452301 ∧ hostRead (fa 0) 0x40C = 0xDD8C0100 := by decide
theorem test_V130_abuf_lanes :
    gives (exec (.ack 1 3) ((State.reset.writeReg 1 1).writeReg 3 1))
      (fun t => decide (hostRead t 0x300 = 0x01057878) && decide (hostRead t 0x304 = 0xDCD90100)
        && decide (hostRead t 0x308 = 0x00000A0D)) = true := by decide +kernel
theorem test_V131_read_only :
    gives (hostWrite 0x010 0 (fa 5)) (fun t => decide (t = fa 5)) = true ∧ hostRead (fa 5) 0x010 = 5
      ∧ hostRead (fa 5) 0x020 = 0xC16C0100 := by decide
theorem test_V132_reserved :
    ([0x024, 0x080, 0x600, 0xFFC, 0x008].map (hostRead State.reset)).all (· == 0) = true := by decide
theorem test_V133_field_halves :
    gives (runSteps 3 (doing [.write 0x048 0x89ABCDEF, .write 0x04C 0x1234567, .read 0x04B] State.reset))
      (fun t => decide (t.readReg 1 = 0x123456789ABCDEF) && decide (t.busReads = [0x89ABCDEF])) = true := by decide
theorem test_V134_ctrl_reserved_bits :
    gives (hostWrite 0x000 0xFFFFFFFF State.reset) (fun t => decide (hostRead t 0x000 = 3)) = true := by decide
theorem test_V135_fbuf_window :
    gives (hostWrite 0x400 0x0D0D7878 State.reset)
      (fun t => decide (hostRead t 0x400 = 0x0D0D7878) && decide (t.fbufByte 2 = 0x0D) && t.fbuf.wf) = true := by decide
theorem test_V136_cmd_runs :
    gives (runSteps 2 (doing [.write 0x008 0x11000002, .read 0x010] (fa 0)))
      (fun t => decide (t.busReads = [2]) && decide (t.cur = 2)) = true := by decide

/-- A step takes the word that withFetchWord places, as the first command after reset (log entry 1). -/
theorem test_withFetchWord :
    gives (step (State.reset.withFetchWord 32 0x20A00013)) (fun t => decide (t.readReg 5 = 0x13)) = true := by decide

/-- The checksum of frame FA over addresses 2 to 13 (43_crc.md rule R189). -/
theorem test_frame_checksum :
    InboundFrame.expectedChecksum CrcCfg.x25
      (InboundFrame.mk 0x01 [0x01, 0x23, 0x45, 0x67, 0x89, 0x01, 0x23, 0x45] 1 0x8CDD) = 0x8CDD := by decide +kernel
theorem test_frame_bytes :
    (InboundFrame.mk 0x01 [0x01, 0x23, 0x45, 0x67, 0x89, 0x01, 0x23, 0x45] 1 0x8CDD).bytes = faBytes := by decide

/-! ## Witnesses: states and operands that meet the hypotheses of each statement, at the boundary of each clause -/

theorem read?_zipIdx (bytes : List Byte) (n k : Nat) (b : Byte) (h : bytes[k]? = some b) :
    Memory.read? ((bytes.zipIdx n).map fun p => (p.2, p.1)) (n + k) = some b := by
  induction bytes generalizing n k with
  | nil => simp at h
  | cons a l ih =>
    cases k with
    | zero =>
      simp at h
      simp [Memory.read?, h]
    | succ k =>
      simp only [List.getElem?_cons_succ] at h
      have := ih (n + 1) k h
      simp only [List.zipIdx_cons, List.map_cons, Memory.read?]
      rw [if_neg (by omega), show n + (k + 1) = n + 1 + k by omega]
      exact this

/-- A loaded state holds the bytes it was loaded with. -/
theorem holdsBytes_loaded (bytes : List Byte) (cur : Nat) (h : bytes.length < 1024) :
    HoldsBytes (loaded bytes bytes.length cur) bytes := by
  refine ⟨?_, fun k b hk => ?_⟩
  · simp [loaded]
    omega
  · have := read?_zipIdx bytes 0 k b hk
    rw [Nat.zero_add] at this
    show (Memory.read? _ k).getD _ = b
    rw [show (loaded bytes bytes.length cur).fbuf = (bytes.zipIdx 0).map fun p => (p.2, p.1) from rfl, this]
    rfl

theorem witness_DecodeOfEncode : (Instr.xbf 7 7 63 64).WellFormed ∧ (Instr.xbf 0 0 0 1).WellFormed := by decide

theorem witness_LegalWord : decode 0x38058000 = .ok (.ack 1 3) := by rfl

theorem witness_WordEncodesRow : (0x3310000C : Word) &&& Opcode.crcm.mask = Opcode.crcm.pattern := by decide

theorem witness_AssembledLines : assembleLine "MOV F1, F2".toList = .ok [.xbf 1 2 0 64] := by rfl

theorem witness_Seek_in : (18 : Half).toNat ≤ (fa 0).flen.toNat := by decide
theorem witness_Seek_past : (fa 0).flen.toNat < (19 : Half).toNat ∧ (fa 0).status.fault = false := by decide

theorem witness_Skip_in : (fa 16).cur.toNat + (2 : Half).toNat ≤ (fa 16).flen.toNat := by decide
theorem witness_Skip_past :
    (fa 16).flen.toNat < (fa 16).cur.toNat + (3 : Half).toNat ∧ (fa 16).status.fault = false := by decide
theorem witness_Skip_zero : (fa 18).cur.toNat ≤ (fa 18).flen.toNat := by decide

theorem witness_Skipr_negative :
    (((fa 18).writeReg 0 3).readReg 0).toNat < (4 : Half).toNat ∧ (fa 18).status.fault = false := by decide
theorem witness_Skipr_in :
    (((fa 16).writeReg 0 7).readReg 0).toNat = (5 : Half).toNat + 2 ∧ (fa 16).cur.toNat + 2 ≤ (fa 16).flen.toNat := by decide
theorem witness_Skipr_past :
    (((fa 16).writeReg 0 8).readReg 0).toNat = (5 : Half).toNat + 3 ∧ (fa 16).flen.toNat < (fa 16).cur.toNat + 3
      ∧ (fa 16).status.fault = false := by decide

theorem witness_Tail_moves : (fa 11).cur.toNat + (6 : Half).toNat < (fa 11).flen.toNat := by decide
theorem witness_Tail_stays : (fa 12).flen.toNat ≤ (fa 12).cur.toNat + (6 : Half).toNat := by decide

theorem witness_Avail : (fa 18).cur.toNat ≤ (fa 18).flen.toNat := by decide

theorem witness_Rdu8_in : (fa 17).cur.toNat + 1 ≤ (fa 17).flen.toNat := by decide
theorem witness_Rdu8_past : (fa 18).flen.toNat < (fa 18).cur.toNat + 1 ∧ (fa 18).status.fault = false := by decide
theorem witness_Rdu16_in : (fa 16).cur.toNat + 2 ≤ (fa 16).flen.toNat := by decide
theorem witness_Rdu16_past : (fa 17).flen.toNat < (fa 17).cur.toNat + 2 ∧ (fa 17).status.fault = false := by decide
theorem witness_Rdu32_in : (fa 14).cur.toNat + 4 ≤ (fa 14).flen.toNat := by decide
theorem witness_Rdu32_past : (fa 15).flen.toNat < (fa 15).cur.toNat + 4 ∧ (fa 15).status.fault = false := by decide

/-- A must-be-0 bit of XBF, XSGN, CRCI and ACK that is 1 (V105 to V107). -/
theorem witness_MustBeZero :
    (0x21DC8240 : Word).toNat / 2 ^ 24 = 0x21 ∧ (0x21DC8240 : Word).toNat / 2 ^ 12 % 2 ^ 6 ≠ 0
      ∧ (0x22000040 : Word).toNat / 2 ^ 24 = 0x22 ∧ (0x22000040 : Word).toNat / 2 ^ 6 % 2 ^ 9 ≠ 0
      ∧ (0x31000100 : Word).toNat / 2 ^ 24 = 0x31 ∧ (0x31000100 : Word).toNat / 2 ^ 8 % 2 ^ 16 ≠ 0
      ∧ (0x38258000 : Word).toNat / 2 ^ 24 = 0x38 ∧ (0x38258000 : Word).toNat / 2 ^ 21 % 2 ^ 3 ≠ 0 := by decide

theorem witness_Xbf : 1 ≤ 1 ∧ 1 ≤ 64 ∧ 64 ≤ 64 := by decide
theorem witness_Hemisphere :
    1800000 = (((State.reset.writeReg 4 1800000).writeReg 7 0x0400).readReg 4).toNat % 2 ^ 32 := by decide
theorem witness_Xcell_corrected : (State.reset.writeCtrl 1).ctrl.cellidMode = true := by decide
theorem witness_Xcell_compat : State.reset.ctrl.cellidMode = false := by decide
theorem witness_Xtime_in : (fa 12).cur.toNat + 6 ≤ (fa 12).flen.toNat := by decide
theorem witness_Xtime_past : (fa 13).flen.toNat < (fa 13).cur.toNat + 6 ∧ (fa 13).status.fault = false := by decide
theorem witness_Ximei_in : (fa 10).cur.toNat + 8 ≤ (fa 10).flen.toNat := by decide
theorem witness_Ximei_past : (fa 11).flen.toNat < (fa 11).cur.toNat + 8 ∧ (fa 11).status.fault = false := by decide
/-- Both sides of the NONDEC clause occur: a digit 10, and none above 9. -/
theorem witness_Ximei_digits :
    identifierNibble ((fa 4).writeFbufByte 4 0x0A) 4 0 = 10 ∧ (List.range 15).all (fun k => identifierNibble (fa 4) 4 k ≤ 9) = true := by
  decide

theorem witness_Crcm_in : (((fa 0).writeReg 4 2).readReg 4).toNat + (16 : Half).toNat ≤ (fa 0).flen.toNat := by decide
theorem witness_Crcm_past :
    (fa 0).flen.toNat < (((fa 0).writeReg 4 19).readReg 4).toNat + (0 : Half).toNat ∧ (fa 0).status.fault = false := by decide
theorem witness_Ack :
    let s := (State.reset.writeReg 1 0xAB16).writeReg 0 0x70102
    (0x16 : Byte).toNat = (s.readReg 1).toNat % 2 ^ 8 ∧ (0x01 : Byte).toNat = (s.readReg 0).toNat / 2 ^ 8 % 2 ^ 8
      ∧ (0x02 : Byte).toNat = (s.readReg 0).toNat % 2 ^ 8 := by decide
theorem witness_Accumulator : ∀ x ∈ [Feed.crci 5, Feed.crcr 1, Feed.crcm 4 16], x.inFrame ((fa 0).writeReg 4 2) := by
  intro x hx
  simp only [List.mem_cons, List.not_mem_nil, or_false] at hx
  rcases hx with rfl | rfl | rfl
  · trivial
  · trivial
  · show (((fa 0).writeReg 4 2).readReg 4).toNat + (16 : Half).toNat ≤ ((fa 0).writeReg 4 2).flen.toNat
    decide

/-- The values of c in 43_crc.md rule R180 for the example of rule R185, CRCI 0x05 after CRCINIT under the default instance:
the byte 0x05 is fed as 0xA0. -/
def divisionReflected (k : Nat) : Nat :=
  [0x5FFF, 0xBFFE, 0x6FDD, 0xDFBA, 0xAF55, 0x4E8B, 0x9D16, 0x2A0D, 0x541A].getD k 0

/-- The same without reflection, for the state 0x8001 and the byte 0x05, worked by hand from rule R180. -/
def divisionPlain (k : Nat) : Nat :=
  [0x8501, 0x1A23, 0x3446, 0x688C, 0xD118, 0xB211, 0x7403, 0xE806, 0xC02D].getD k 0

theorem witness_CrcUpdate_refin :
    (∀ i, i < 8 → (0xA0 : Byte).getLsbD i = (0x05 : Byte).getLsbD (if CrcCfg.x25.refin then 7 - i else i))
      ∧ divisionReflected 0 = (0xFFFF : Half).toNat ^^^ (0xA0 : Byte).toNat * 2 ^ 8
      ∧ ∀ k, k < 8 → divisionReflected (k + 1) =
          if divisionReflected k / 2 ^ 15 % 2 = 1 then (divisionReflected k * 2 ^^^ 0x1021) % 2 ^ 16
          else divisionReflected k * 2 % 2 ^ 16 := by decide
theorem witness_CrcUpdate_plain :
    (∀ i, i < 8 → (0x05 : Byte).getLsbD i
        = (0x05 : Byte).getLsbD (if ({ CrcCfg.x25 with refin := false } : CrcCfg).refin then 7 - i else i))
      ∧ divisionPlain 0 = (0x8001 : Half).toNat ^^^ (0x05 : Byte).toNat * 2 ^ 8
      ∧ ∀ k, k < 8 → divisionPlain (k + 1) =
          if divisionPlain k / 2 ^ 15 % 2 = 1 then (divisionPlain k * 2 ^^^ 0x1021) % 2 ^ 16
          else divisionPlain k * 2 % 2 ^ 16 := by decide
theorem witness_CrcUpdate_reversed : ∀ i, i < 8 → (0xA0 : Byte).getLsbD (7 - i) = (0x05 : Byte).getLsbD i := by decide

theorem witness_FaultsArePrecise_bounds :
    (fa 0).status.fault = false ∧ gives (exec (.seek 19) (fa 0)) (fun t => t.status.fault) = true := by decide
theorem witness_FaultsArePrecise_negskip :
    (fa 0).status.fault = false ∧ gives (exec (.skipr 0 1) (fa 0)) (fun t => t.status.fault) = true := by decide
theorem witness_NoCommandTouchesAPendingRecord :
    (pending (fa 0)).status.fault = true ∧ gives (exec (.seek 20) (pending (fa 0))) (fun t => decide (t.faultInfo = 0x13)) = true := by
  decide
/-- The byte at FLEN differs, the bytes below it do not. -/
theorem witness_CommandsSeeFbufOnlyBelowFlen :
    ∀ a, a < (loaded [1, 2] 1 0).flen.toNat →
      ((loaded [1, 2] 1 0).withFbuf [(0, 1), (1, 7)] 3).fbufByte a = (loaded [1, 2] 1 0).fbufByte a := by
  intro a ha
  have : a = 0 := by
    have : (loaded [1, 2] 1 0).flen.toNat = 1 := by decide
    omega
  subst this
  decide

theorem witness_StepRuns :
    let s := doing [.write 0x00B 0x13000006] (fa 0)
    s.busQueue = .write 0x00B 0x13000006 :: [] ∧ (0x00B : HostAddr).toNat / 4 = 2 ∧ s.inReset = false
      ∧ s.status.fault = false ∧ decodeTableWord 32 0x13000006 = some (.tail 6) := by decide
theorem witness_StepRuns_decode : decode 0x13000006 = .ok (.tail 6) := by rfl
theorem witness_PendingFault :
    let s := doing [.write 0x008 0] (pending (fa 0))
    s.busQueue = .write 0x008 0 :: [] ∧ (0x008 : HostAddr).toNat / 4 = 2 ∧ s.inReset = false ∧ s.status.fault = true := by
  decide
theorem witness_IllegalWord :
    let s := doing [.write 0x008 0x31000100] (fa 0)
    s.busQueue = .write 0x008 0x31000100 :: [] ∧ s.inReset = false ∧ s.status.fault = false := by decide
theorem witness_IllegalWord_no_row : ∀ op : Opcode, (0x31000100 : Word) &&& op.mask ≠ op.pattern := by
  intro op
  cases op <;> decide

theorem inv_fa : (fa 18).Inv := ⟨by decide, by decide, by decide, by decide, by decide⟩
theorem inv_pending : (pending (fa 18)).Inv := ⟨by decide, by decide, by decide, by decide, by decide⟩
theorem witness_EveryStepKeepsTheInvariants :
    (doing [.write 0x00C 0x200] (fa 18)).Inv ∧ gives (step (doing [.write 0x00C 0x200] (fa 18))) (fun _ => true) = true :=
  ⟨⟨by decide, by decide, by decide, by decide, by decide⟩, by decide⟩
theorem witness_StepStops :
    let s := doing [.resetAssert, .read 0x000] (fa 0)
    gives (step s) (fun t => t.inReset && !gives (step t) (fun _ => true)) = true := by decide

theorem witness_OnlyTheHostEnds_clear :
    let s := doing [.write 0x004 1] (pending (fa 0))
    s.status.fault = true ∧ gives (step s) (fun t => !t.status.fault) = true := by decide
theorem witness_OnlyTheHostEnds_reset :
    let s := doing [.resetRelease] (pending (fa 0)).assertReset
    s.status.fault = true ∧ gives (step s) (fun t => !t.status.fault) = true := by decide
theorem witness_Nondec_rises :
    gives (step (doing [cmdWrite 0x25400000] ((fa 4).writeFbufByte 4 0x0A))) (fun t => t.status.nondec) = true := by decide
theorem witness_Ackv_rises_and_falls :
    gives (runSteps 2 (doing [cmdWrite 0x38058000, .read 0x004] (fa 4))) (fun t => t.status.ackv) = true
      ∧ gives (runSteps 2 (doing [cmdWrite 0x38058000, .write 0x004 0x200] (fa 4))) (fun t => !t.status.ackv) = true := by
  decide +kernel
theorem witness_FbufChanges :
    gives (step (doing [.write 0x5FC 0xAB000000] (loaded (List.replicate 512 1) 0 0)))
      (fun t => decide (t.fbufByte 511 = 0xAB) && decide ((loaded (List.replicate 512 1) 0 0).fbufByte 511 = 1)) = true := by
  decide +kernel
theorem witness_NoStepChangesTheInstanceParameters :
    gives (step (doing [.resetRelease] (fa 4).assertReset)) (fun t => decide (t.crcCfg = CrcCfg.x25)) = true := by decide
theorem witness_ReleasingReset :
    (doing [.resetRelease] (fa 4).assertReset).busQueue = .resetRelease :: []
      ∧ (doing [.resetRelease] (fa 4).assertReset).inReset = true := by decide

theorem witness_FlenWrite :
    (0x00F : HostAddr).toNat / 4 = 3 ∧ (512 : Word).toNat ≤ 512 ∧ 512 < (513 : Word).toNat ∧ (fa 0).status.fault = false
      ∧ (pending (fa 0)).status.fault = true := by decide
theorem witness_Status : (0x004 : HostAddr).toNat / 4 = 1 ∧ (0x007 : HostAddr).toNat / 4 = 1 := by decide
theorem witness_Ctrl : (0x000 : HostAddr).toNat / 4 = 0 ∧ (0x003 : HostAddr).toNat / 4 = 0 := by decide
theorem witness_FieldHalves :
    (0x040 : HostAddr).toNat / 4 = 16 + 2 * (0 : RegName).val ∧ (0x07C : HostAddr).toNat / 4 = 16 + 2 * (7 : RegName).val + 1 := by
  decide
theorem witness_FbufWindow :
    (0x400 : HostAddr).toNat / 4 = 256 + 0 ∧ (0x5FF : HostAddr).toNat / 4 = 256 + 127 := by decide
theorem witness_AbufWindow : (0x300 : HostAddr).toNat / 4 = 192 + 0 ∧ (0x30B : HostAddr).toNat / 4 = 192 + 2 := by decide
theorem witness_Reserved :
    (0x024 : HostAddr).toNat / 4 = 9 ∧ (0x03F : HostAddr).toNat / 4 = 15 ∧ (0x080 : HostAddr).toNat / 4 = 32
      ∧ (0x2FF : HostAddr).toNat / 4 = 191 ∧ (0x30C : HostAddr).toNat / 4 = 195 ∧ (0x3FF : HostAddr).toNat / 4 = 255
      ∧ (0x600 : HostAddr).toNat / 4 = 384 ∧ (0x010 : HostAddr).toNat / 4 = 4 ∧ (0x008 : HostAddr).toNat / 4 = 2 := by decide
theorem witness_ReadOnly :
    (0x00C : HostAddr).toNat / 4 = 3 ∧ (0x010 : HostAddr).toNat / 4 = 4 ∧ (0x014 : HostAddr).toNat / 4 = 5
      ∧ (0x018 : HostAddr).toNat / 4 = 6 ∧ (0x01C : HostAddr).toNat / 4 = 7 ∧ (0x020 : HostAddr).toNat / 4 = 8 := by decide
theorem witness_HostReads :
    (doing [.read 0xFFF] (fa 0)).busQueue = .read 0xFFF :: [] ∧ (doing [.read 0xFFF] (fa 0)).inReset = false := by decide
theorem witness_Commute :
    (0x00C : HostAddr).toNat / 4 = 3 ∧ 256 ≤ (0x400 : HostAddr).toNat / 4 ∧ (0x5FF : HostAddr).toNat / 4 < 384 := by decide

theorem witness_LoadingAFrame :
    faBytes.length ≤ 512 ∧ (doing (loadFrame 0 faBytes ++ [.read 0x010]) State.reset).inReset = false
      ∧ (doing (loadFrame 0 faBytes ++ [.read 0x010]) State.reset).busQueue = loadFrame 0 faBytes ++ [.read 0x010] := by decide
theorem witness_LoadingAFrame_longest :
    (List.replicate 512 (0 : Byte)).length ≤ 512
      ∧ (doing (loadFrame 0 (List.replicate 512 0)) State.reset).inReset = false := ⟨List.length_replicate.le, rfl⟩

/-- Frame FA as a login frame. -/
def faFrame : InboundFrame := ⟨0x01, (LoginPayload.mk #v[0x01, 0x23, 0x45, 0x67, 0x89, 0x01, 0x23, 0x45] []).bytes, 1, 0x8CDD⟩

theorem witness_TailSix_and_Login :
    faFrame.length ≤ 255 ∧ HoldsBytes (fa 12) faFrame.bytes ∧ (fa 12).cur.toNat + 6 ≤ (fa 12).flen.toNat := by
  refine ⟨by decide, ?_, by decide⟩
  have : faFrame.bytes = faBytes := by decide
  rw [this]
  exact holdsBytes_loaded faBytes 12 (by decide)

/-- A type 0x16 payload with G = 13 and S = 10. -/
def somePosition : PositionPayload where
  time := #v[0x0B, 0x0B, 0x0B, 0x11, 0x2A, 0x05]
  gpsLength := 13
  satellites := 8
  latitude := 0x03DCC500
  longitude := 0x0CDFE600
  speed := 40
  courseFlags := 0x1D23
  reserved := [0xEE]
  rest := .gpsLbsStatus 10 ⟨460, 0, 0x1234, 0x5678, 0x9A⟩ [0xDD] 0x44 0x05 0x04
  vendor := [0x99]

/-- The same for type 0x12, with G = 12. -/
def otherPosition : PositionPayload :=
  { somePosition with gpsLength := 12, reserved := [], rest := .gpsLbs ⟨460, 0, 0x1234, 0x5678, 0x9A⟩, vendor := [] }

theorem witness_PositionFields :
    somePosition.wf = true ∧ otherPosition.wf = true
      ∧ HoldsBytes (loaded (InboundFrame.mk 0x16 somePosition.bytes 1 0).bytes (InboundFrame.mk 0x16 somePosition.bytes 1 0).bytes.length 0)
          (InboundFrame.mk 0x16 somePosition.bytes 1 0).bytes
      ∧ HoldsBytes (loaded (InboundFrame.mk 0x12 otherPosition.bytes 1 0).bytes (InboundFrame.mk 0x12 otherPosition.bytes 1 0).bytes.length 0)
          (InboundFrame.mk 0x12 otherPosition.bytes 1 0).bytes :=
  ⟨by decide, by decide, holdsBytes_loaded _ 0 (by decide), holdsBytes_loaded _ 0 (by decide)⟩

theorem witness_StepPerformsTheHostWrite :
    let s := doing [.write 0x00F 512, .write 0x004 1] (pending (fa 5))
    s.busQueue = .write 0x00F 512 :: [.write 0x004 1] ∧ s.inReset = false ∧ s.status.fault = true
      ∧ (0x00F : HostAddr).toNat / 4 ≠ 2 ∧ (0x00F : HostAddr).toNat / 4 = 3 ∧ (512 : Word).toNat ≤ 512
      ∧ (0x007 : HostAddr).toNat / 4 ≠ 2 ∧ (0x010 : HostAddr).toNat / 4 ≠ 2 := by decide

/-- 60_exceptions.md rule R215: a write of CTRL works as usual while a fault is pending, through the step. -/
theorem test_R215_ctrl_write_while_pending :
    gives (step (doing [.write 0x000 3] (pending (fa 5)))) (fun t => decide (hostRead t 0x000 = 3) && t.irq) = true := by decide

end Sys2Proof.Tests
end

section
/-! PROOFS. The statements of 00_scope.md: MemRead as a sum (rule R9), precise faults (rule R10) and the fixed CRC parameters
(rule R6). -/

namespace Sys2Proof.Machine

/-! ## MemRead -/

/-- Reading one byte more puts the first byte in front, as the most significant (20_memory.md rule R61). -/
theorem State.memRead_succ (s : State) (a n : Nat) :
    s.memRead a (n + 1) = (s.fbufByte a).toNat * 2 ^ (8 * n) + s.memRead (a + 1) n := by
  rw [State.memRead, State.fbufBytes_succ, bigEndian_cons, State.fbufBytes_length, Nat.pow_mul]
  rfl

/-- Settles O14, by induction on the count: the first byte is the sum's first term, the others are the sum one address
further on. -/
theorem memReadIsTheBigEndianSum : Obligations.MemReadIsTheBigEndianSum := by
  intro s a n
  induction n generalizing a with
  | zero => rfl
  | succ n ih =>
    have hterm (k : Nat) : (s.fbufByte (a + 1 + k)).toNat * 2 ^ (8 * (n - 1 - k))
        = (s.fbufByte (a + (k + 1))).toNat * 2 ^ (8 * (n - (k + 1))) := by
      rw [Nat.add_right_comm a 1 k, Nat.sub_sub, Nat.add_comm 1 k, Nat.add_assoc]
    rw [State.memRead_succ, ih (a + 1), List.range_succ_eq_map]
    simp [hterm, Function.comp_def]

/-! ## What a completing command keeps -/

theorem Completes.fault_eq {s t : State} (h : Completes s t) : t.status.fault = s.status.fault := by
  rw [h]

theorem Completes.crcCfg_eq {s t : State} (h : Completes s t) : t.crcCfg = s.crcCfg := by
  rw [h]

/-! ## Which commands raise -/

/-- The commands that can raise BOUNDS (60_exceptions.md rule R211). -/
def boundsRaisers : List Opcode := [.seek, .skip, .skipr, .rdu8, .rdu16, .rdu32, .xtime, .ximei, .crcm]

/-- A command outside the table of 60_exceptions.md rule R211 leaves STATUS.FAULT as it is. -/
theorem exec_fault_of_not_boundsRaiser {i : Instr} {s t : State} (hi : i.opcode ∉ boundsRaisers)
    (h : exec i s = .next t) : t.status.fault = s.status.fault := by
  cases i with
  | seek | skip | skipr | rdu8 | rdu16 | rdu32 | xtime | ximei | crcm =>
    simp [boundsRaisers, Instr.opcode] at hi
  | avail | movi | xbf | xsgn | xcell | crcinit | crci | crcr | crcrd | ack =>
    injection h with h
    subst h
    rfl
  | tail imm =>
    injection h with h
    subst h
    split <;> rfl

/-- A FAULT_INFO word is its own value mod 2^32. -/
theorem word_info (w : Word) : (w.toNat : Int) = (w.toNat : Int) % 2 ^ 32 :=
  (Int.emod_eq_of_lt (by omega) (by omega)).symm

/-- Settles O31: a command completes, which keeps FAULT, or records BOUNDS or NEGSKIP over the state it started from. -/
theorem faultsArePreciseAndOnlyFromTheTable : Obligations.FaultsArePreciseAndOnlyFromTheTable := by
  intro i s t h hs ht
  rcases exec_cases h with hc | ⟨info, rfl⟩ | ⟨⟨r, k, rfl⟩, info, rfl⟩
  · simp [hc.fault_eq, hs] at ht
  · have hi : i.opcode ∈ boundsRaisers := by
      by_contra hi
      simp [exec_fault_of_not_boundsRaiser hi h, hs] at ht
    exact ⟨_, .inl ⟨State.recordFault_recorded hs .bounds _ _ _ (word_info info), hi⟩⟩
  · exact ⟨_, .inr ⟨State.recordFault_recorded hs .negskip _ _ _ (word_info info), rfl⟩⟩

/-! ## The CRC parameters -/

@[simp] theorem State.writeFieldLow_crcCfg (s : State) (i : RegName) (w : Word) :
    (s.writeFieldLow i w).crcCfg = s.crcCfg := rfl

@[simp] theorem State.writeFieldHigh_crcCfg (s : State) (i : RegName) (w : Word) :
    (s.writeFieldHigh i w).crcCfg = s.crcCfg := rfl

@[simp] theorem State.writeFbufWord_crcCfg (s : State) (k : Nat) (w : Word) :
    (s.writeFbufWord k w).crcCfg = s.crcCfg := rfl

@[simp] theorem State.releaseReset_crcCfg (s : State) : s.releaseReset.crcCfg = s.crcCfg := by
  unfold State.releaseReset
  split <;> rfl

theorem exec_crcCfg {i : Instr} {s t : State} (h : exec i s = .next t) : t.crcCfg = s.crcCfg := by
  rcases exec_cases h with hc | ⟨info, rfl⟩ | ⟨-, info, rfl⟩
  · exact hc.crcCfg_eq
  · exact State.recordFault_crcCfg s _ _ _
  · exact State.recordFault_crcCfg s _ _ _

theorem commandWrite_crcCfg {w : Word} {s t : State} (h : commandWrite w s = .next t) : t.crcCfg = s.crcCfg := by
  rcases commandWrite_cases h with ⟨-, rfl⟩ | ⟨-, -, rfl⟩ | ⟨-, i, -, hx⟩
  · rfl
  · exact State.recordFault_crcCfg s _ _ _
  · exact exec_crcCfg hx

theorem hostWrite_crcCfg {a : HostAddr} {w : Word} {s t : State} (h : hostWrite a w s = .next t) :
    t.crcCfg = s.crcCfg := by
  rcases hostWrite_cases h with ⟨-, hc⟩ | ⟨-, rfl⟩ | ⟨-, rfl⟩ | ⟨-, rfl⟩ | ⟨i, -, rfl⟩ | ⟨i, -, rfl⟩ | ⟨k, -, rfl⟩ | rfl
  · exact commandWrite_crcCfg hc
  all_goals simp

/-- Settles O43, event by event: a write keeps CRC_CFG by `hostWrite_crcCfg`, the other events by their own lemmas. -/
theorem noStepChangesTheInstanceParameters : Obligations.NoStepChangesTheInstanceParameters := by
  intro s t h
  rcases step_cases h with ⟨-, rfl⟩ | ⟨a, w, rest, -, -, hw⟩ | ⟨a, rest, -, -, rfl⟩ | ⟨rest, -, rfl⟩ | ⟨rest, -, rfl⟩
  · rfl
  · exact (hostWrite_crcCfg hw).trans (s.withQueue_crcCfg rest)
  all_goals simp

end Sys2Proof.Machine
end

section
/-! PROOFS. The statements of 10_state.md on commands and FBUF (rule R38) and on the invariants (rule R42). -/

namespace Sys2Proof.Machine

/-! ## The commands that test before the range check -/

section

variable {s t : State} {r : RegName} {imm : Half}

theorem exec_skipr_of_lt (h : (s.readReg r).toNat < imm.toNat) :
    exec (.skipr r imm) s
      = raiseFault .negskip (.skipr r imm) (BitVec.ofInt 32 ((s.readReg r).toNat - imm.toNat)) s :=
  if_pos h

theorem exec_skipr_of_le (h : imm.toNat ≤ (s.readReg r).toNat) :
    exec (.skipr r imm) s = advance (.skipr r imm) ((s.readReg r).toNat - imm.toNat) s :=
  if_neg (not_lt.mpr h)

theorem exec_tail_of_lt (h : imm.toNat < s.remaining) :
    exec (.tail imm) s = .next (s.setCur (s.flen.toNat - imm.toNat)) :=
  congrArg _ (if_pos h)

theorem exec_tail_of_le (h : s.remaining ≤ imm.toNat) : exec (.tail imm) s = .next s :=
  congrArg _ (if_neg (not_lt.mpr h))

/-- Everything SKIPR can do: raise NEGSKIP, or go on as SKIP does. -/
theorem exec_skipr_cases (h : exec (.skipr r imm) s = .next t) :
    (∃ info, t = s.recordFault .negskip (encode (.skipr r imm)) info)
      ∨ advance (.skipr r imm) ((s.readReg r).toNat - imm.toNat) s = .next t := by
  rcases lt_or_ge (s.readReg r).toNat imm.toNat with hneg | hpos
  · rw [exec_skipr_of_lt hneg] at h
    injection h with h
    exact .inl ⟨_, h.symm⟩
  · exact .inr (exec_skipr_of_le hpos ▸ h)

/-- Everything TAIL can do: move the cursor, or nothing. -/
theorem exec_tail_cases (h : exec (.tail imm) s = .next t) :
    t = s.setCur (s.flen.toNat - imm.toNat) ∨ t = s := by
  rcases lt_or_ge imm.toNat s.remaining with hmove | hstay
  · rw [exec_tail_of_lt hmove] at h
    injection h with h
    exact .inl h.symm
  · rw [exec_tail_of_le hstay] at h
    injection h with h
    exact .inr h.symm

end

/-! ## Updates and FBUF's contents -/

@[simp] theorem State.writeReg_withFbuf (s : State) (m : Memory) (e : Nat) (r : RegName) (v : Long) :
    (s.withFbuf m e).writeReg r v = (s.writeReg r v).withFbuf m e := rfl

@[simp] theorem State.setCur_withFbuf (s : State) (m : Memory) (e n : Nat) :
    (s.withFbuf m e).setCur n = (s.setCur n).withFbuf m e := rfl

@[simp] theorem State.setCrc_withFbuf (s : State) (m : Memory) (e : Nat) (c : Half) :
    (s.withFbuf m e).setCrc c = (s.setCrc c).withFbuf m e := rfl

@[simp] theorem State.setNondecIf_withFbuf (s : State) (m : Memory) (e : Nat) (c : Bool) :
    (s.withFbuf m e).setNondecIf c = (s.setNondecIf c).withFbuf m e := rfl

/-- A fault that a command raises is the same whatever FBUF holds. -/
theorem raiseFault_withFbuf {c : Cause} {i : Instr} {info : Word} {s t : State} (m : Memory) (e : Nat)
    (h : raiseFault c i info s = .next t) : raiseFault c i info (s.withFbuf m e) = .next (t.withFbuf m e) := by
  injection h with h
  rw [raiseFault, State.recordFault_withFbuf, h]

/-- The range check does not look at FBUF: it is enough that the completed states agree when the range fits. -/
theorem withinFrame_withFbuf {i : Instr} {a : Nat} {s d d' t : State} {m : Memory} {e : Nat}
    (hd : a ≤ s.flen.toNat → d' = d.withFbuf m e) (h : withinFrame i a s d = .next t) :
    withinFrame i a (s.withFbuf m e) d' = .next (t.withFbuf m e) := by
  rcases withinFrame_cases h with ⟨hfit, rfl⟩ | ⟨hpast, rfl⟩
  · rw [withinFrame_fits (by simpa using hfit), hd hfit]
  · rw [withinFrame_past (by simpa using hpast), State.recordFault_withFbuf]

theorem advance_withFbuf {i : Instr} {n : Nat} {s t : State} (m : Memory) (e : Nat) (h : advance i n s = .next t) :
    advance i n (s.withFbuf m e) = .next (t.withFbuf m e) :=
  withinFrame_withFbuf (fun _ => rfl) h

/-- A read at the cursor is the same when its value is, provided that the bytes read are below FLEN. -/
theorem readAtCursor_withFbuf {i : Instr} {r : RegName} {n : Nat} {v v' : Long} {s t : State} {m : Memory} {e : Nat}
    (hv : s.cur.toNat + n ≤ s.flen.toNat → v' = v) (h : readAtCursor i r n v s = .next t) :
    readAtCursor i r n v' (s.withFbuf m e) = .next (t.withFbuf m e) :=
  withinFrame_withFbuf (fun hfit => by simp [hv hfit]) h

/-! ## Reads below FLEN -/

/-- s with the FBUF contents m, e reads as s below FLEN. -/
def AgreeBelowFlen (s : State) (m : Memory) (e : Nat) : Prop :=
  ∀ a, a < s.flen.toNat → (s.withFbuf m e).fbufByte a = s.fbufByte a

section

variable {s : State} {m : Memory} {e a n : Nat}

theorem AgreeBelowFlen.fbufBytes (hm : AgreeBelowFlen s m e) (h : a + n ≤ s.flen.toNat) :
    (s.withFbuf m e).fbufBytes a n = s.fbufBytes a n :=
  State.fbufBytes_congr fun b _ hb => hm b (by omega)

theorem AgreeBelowFlen.memRead (hm : AgreeBelowFlen s m e) (h : a + n ≤ s.flen.toNat) :
    (s.withFbuf m e).memRead a n = s.memRead a n :=
  State.memRead_congr fun b _ hb => hm b (by omega)

theorem AgreeBelowFlen.timeAt (hm : AgreeBelowFlen s m e) (h : a + 6 ≤ s.flen.toNat) :
    (s.withFbuf m e).timeAt a = s.timeAt a := by
  unfold State.timeAt
  rw [hm a (by omega), hm (a + 1) (by omega), hm (a + 2) (by omega), hm (a + 3) (by omega), hm (a + 4) (by omega),
    hm (a + 5) (by omega)]

end

/-- Settles O33, command by command: most commands do not look at FBUF, and those that read it do so after the range
check, below FLEN. -/
theorem commandsSeeFbufOnlyBelowFlen : Obligations.CommandsSeeFbufOnlyBelowFlen := by
  intro i s t m e hm h
  replace hm : AgreeBelowFlen s m e := hm
  cases i with
  | seek imm => exact withinFrame_withFbuf (fun _ => rfl) h
  | skip imm => exact advance_withFbuf m e h
  | skipr r k =>
    rcases lt_or_ge (s.readReg r).toNat k.toNat with hneg | hpos
    · rw [exec_skipr_of_lt hneg] at h
      exact (exec_skipr_of_lt (s := s.withFbuf m e) hneg).trans (raiseFault_withFbuf m e h)
    · rw [exec_skipr_of_le hpos] at h
      exact (exec_skipr_of_le (s := s.withFbuf m e) hpos).trans (advance_withFbuf m e h)
  | tail imm =>
    rcases lt_or_ge imm.toNat s.remaining with hmove | hstay
    · rw [exec_tail_of_lt hmove] at h
      injection h with h
      exact h ▸ exec_tail_of_lt hmove
    · rw [exec_tail_of_le hstay] at h
      injection h with h
      exact h ▸ exec_tail_of_le hstay
  | rdu8 rd => exact readAtCursor_withFbuf (fun hfit => by rw [State.withFbuf_cur, hm _ (by omega)]) h
  | rdu16 rd | rdu32 rd => exact readAtCursor_withFbuf (fun hfit => by rw [State.withFbuf_cur, hm.memRead hfit]) h
  | xtime rd => exact readAtCursor_withFbuf (fun hfit => hm.timeAt hfit) h
  | ximei rd => exact withinFrame_withFbuf (fun hfit => by simp [hm.memRead (a := s.cur.toNat) hfit]) h
  | crcm r n => exact withinFrame_withFbuf (fun hfit => by simp [hm.fbufBytes (a := (s.readReg r).toNat) hfit]) h
  | avail | movi | xbf | xsgn | xcell | crcinit | crci | crcr | crcrd | ack =>
    injection h with h
    subst h
    rfl

/-! ## The invariants (rule R42) -/

/-- The invariants speak of FLEN, CUR, FAULT, CAUSE and FBUF's list only. -/
theorem State.Inv.of_same {s t : State} (hs : s.Inv) (hflen : t.flen = s.flen) (hcur : t.cur.toNat ≤ s.flen.toNat)
    (hfault : t.status.fault = s.status.fault) (hcause : t.status.cause = s.status.cause) (hfbuf : t.fbuf = s.fbuf) :
    t.Inv where
  flen_le := hflen ▸ hs.flen_le
  cur_le := hflen ▸ hcur
  cause_zero := by rw [hfault, hcause]; exact hs.cause_zero
  cause_code := by rw [hfault, hcause]; exact hs.cause_code
  fbuf_wf := hfbuf ▸ hs.fbuf_wf

/-- The codes of the causes are 1 to 4 (60_exceptions.md rule R211). -/
theorem Cause.code_bounds (c : Cause) : 1 ≤ c.code.toNat ∧ c.code.toNat ≤ 4 := by
  cases c <;> decide

@[simp] theorem Cause.code_ne_zero (c : Cause) : ¬ c.code = 0#4 := by
  cases c <;> decide

theorem State.Inv.recordFault {s : State} (hs : s.Inv) (c : Cause) (cmd info : Word) :
    (s.recordFault c cmd info).Inv := by
  cases hf : s.status.fault with
  | true => rwa [State.recordFault_pending hf]
  | false =>
    exact {
      flen_le := by simpa using hs.flen_le
      cur_le := by simpa using hs.cur_le
      cause_zero := by simp [State.recordFault_status hf]
      cause_code := by simpa [State.recordFault_status hf] using c.code_bounds
      fbuf_wf := by simpa using hs.fbuf_wf }

theorem State.Inv.clearFault {s : State} (hs : s.Inv) : s.clearFault.Inv where
  flen_le := hs.flen_le
  cur_le := hs.cur_le
  cause_zero := by simp
  cause_code := by simp
  fbuf_wf := hs.fbuf_wf

theorem State.afterReset_inv (cfg : CrcCfg) (n : Nat) : (State.afterReset cfg n).Inv where
  flen_le := by simp [State.afterReset]
  cur_le := by simp [State.afterReset]
  cause_zero := by simp [State.afterReset]
  cause_code := by simp [State.afterReset]
  fbuf_wf := rfl

/-- Settles O38: the reset state is the state after a reset under the default CRC_CFG. -/
theorem resetMeetsTheInvariants : Obligations.ResetMeetsTheInvariants :=
  State.afterReset_inv CrcCfg.x25 0

/-! ### Commands -/

/-- A cursor set to n is at most n, cut off or not. -/
theorem State.setCur_toNat_le (s : State) (n : Nat) : (s.setCur n).cur.toNat ≤ n := by
  simpa using Nat.mod_le n 1024

/-- A command under the range check leaves CUR inside the frame, when the completed command does. -/
theorem withinFrame_cur_le {i : Instr} {a : Nat} {s d t : State} (h : withinFrame i a s d = .next t)
    (hs : s.cur.toNat ≤ s.flen.toNat) (hd : a ≤ s.flen.toNat → d.cur.toNat ≤ s.flen.toNat) :
    t.cur.toNat ≤ s.flen.toNat := by
  rcases withinFrame_cases h with ⟨hfit, rfl⟩ | ⟨-, rfl⟩
  · exact hd hfit
  · simpa using hs

theorem withinFrame_setCur_cur_le {i : Instr} {a : Nat} {s d t : State} (h : withinFrame i a s (d.setCur a) = .next t)
    (hs : s.cur.toNat ≤ s.flen.toNat) : t.cur.toNat ≤ s.flen.toNat :=
  withinFrame_cur_le h hs (d.setCur_toNat_le a).trans

/-- No command moves CUR past FLEN. -/
theorem exec_cur_le {i : Instr} {s t : State} (hs : s.cur.toNat ≤ s.flen.toNat) (h : exec i s = .next t) :
    t.cur.toNat ≤ s.flen.toNat := by
  cases i with
  | seek | skip | rdu8 | rdu16 | rdu32 | xtime | ximei => exact withinFrame_setCur_cur_le h hs
  | skipr r k =>
    rcases exec_skipr_cases h with ⟨info, rfl⟩ | hskip
    · simpa using hs
    · exact withinFrame_setCur_cur_le hskip hs
  | tail imm =>
    rcases exec_tail_cases h with rfl | rfl
    · exact (s.setCur_toNat_le _).trans (Nat.sub_le _ _)
    · exact hs
  | crcm r n => exact withinFrame_cur_le h hs fun _ => hs
  | avail | movi | xbf | xsgn | xcell | crcinit | crci | crcr | crcrd | ack =>
    injection h with h
    subst h
    exact hs

theorem Completes.flen_eq {s t : State} (h : Completes s t) : t.flen = s.flen := by
  rw [h]

theorem Completes.cause_eq {s t : State} (h : Completes s t) : t.status.cause = s.status.cause := by
  rw [h]

theorem Completes.fbuf_eq {s t : State} (h : Completes s t) : t.fbuf = s.fbuf := by
  rw [h]

theorem State.Inv.exec {i : Instr} {s t : State} (hs : s.Inv) (h : exec i s = .next t) : t.Inv := by
  rcases exec_cases h with hc | ⟨info, rfl⟩ | ⟨-, info, rfl⟩
  · exact hs.of_same hc.flen_eq (exec_cur_le hs.cur_le h) hc.fault_eq hc.cause_eq hc.fbuf_eq
  · exact hs.recordFault _ _ _
  · exact hs.recordFault _ _ _

/-! ### Host writes and events -/

theorem State.Inv.commandWrite {w : Word} {s t : State} (hs : s.Inv) (h : commandWrite w s = .next t) : t.Inv := by
  rcases commandWrite_cases h with ⟨-, rfl⟩ | ⟨-, -, rfl⟩ | ⟨-, i, -, hx⟩
  · exact hs
  · exact hs.recordFault _ _ _
  · exact hs.exec hx

/-- A STATUS write with bit 0 clear keeps FAULT and CAUSE, one with bit 0 set clears both. -/
theorem State.Inv.writeStatus {s : State} (hs : s.Inv) (w : Word) : (s.writeStatus w).Inv := by
  unfold State.writeStatus
  split
  · exact hs.clearFault.of_same rfl hs.cur_le rfl rfl rfl
  · exact hs.of_same rfl hs.cur_le rfl rfl rfl

theorem State.Inv.writeFlen {s : State} (hs : s.Inv) (w : Word) : (s.writeFlen w).Inv := by
  unfold State.writeFlen
  split
  · exact hs.recordFault _ _ _
  · rename_i hw
    exact {
      flen_le := by
        simp only [BitVec.toNat_setWidth]
        exact (Nat.mod_le _ _).trans (not_lt.mp hw)
      cur_le := Nat.zero_le _
      cause_zero := hs.cause_zero
      cause_code := hs.cause_code
      fbuf_wf := hs.fbuf_wf }

theorem State.Inv.writeFbufWord {s : State} {k : Nat} (hs : s.Inv) (hk : k < 128) (w : Word) :
    (s.writeFbufWord k w).Inv where
  flen_le := hs.flen_le
  cur_le := hs.cur_le
  cause_zero := hs.cause_zero
  cause_code := hs.cause_code
  fbuf_wf := State.writeFbufWord_wf w hk hs.fbuf_wf

theorem State.Inv.hostWrite {a : HostAddr} {w : Word} {s t : State} (hs : s.Inv) (h : hostWrite a w s = .next t) :
    t.Inv := by
  rcases hostWrite_cases h with
    ⟨-, hc⟩ | ⟨-, rfl⟩ | ⟨-, rfl⟩ | ⟨-, rfl⟩ | ⟨i, -, rfl⟩ | ⟨i, -, rfl⟩ | ⟨k, hk, rfl⟩ | rfl
  · exact hs.commandWrite hc
  · exact hs.of_same rfl hs.cur_le rfl rfl rfl
  · exact hs.writeStatus w
  · exact hs.writeFlen w
  · exact hs.of_same rfl hs.cur_le rfl rfl rfl
  · exact hs.of_same rfl hs.cur_le rfl rfl rfl
  · exact hs.writeFbufWord (hostReg_fbufWord hk) w
  · exact hs

theorem State.Inv.releaseReset {s : State} (hs : s.Inv) : s.releaseReset.Inv := by
  cases hr : s.inReset with
  | true =>
    have hreset := State.afterReset_inv s.crcCfg (s.epoch + 1)
    rw [State.releaseReset_of_asserted hr]
    exact hreset.of_same rfl hreset.cur_le rfl rfl rfl
  | false => rwa [State.releaseReset_of_released hr]

theorem State.Inv.withQueue {s : State} (hs : s.Inv) (q : List BusEvent) : (s.withQueue q).Inv :=
  hs.of_same rfl hs.cur_le rfl rfl rfl

/-- Settles O37, event by event: a write by `State.Inv.hostWrite`, a release by `State.Inv.releaseReset`; the other events
touch nothing that the invariants speak of. -/
theorem everyStepKeepsTheInvariants : Obligations.EveryStepKeepsTheInvariants := by
  intro s t hs h
  rcases step_cases h with ⟨-, rfl⟩ | ⟨a, w, rest, -, -, hw⟩ | ⟨a, rest, -, -, rfl⟩ | ⟨rest, -, rfl⟩ | ⟨rest, -, rfl⟩
  · exact hs
  · exact (hs.withQueue rest).hostWrite hw
  · exact hs.of_same rfl hs.cur_le rfl rfl rfl
  · exact hs.of_same rfl hs.cur_le rfl rfl rfl
  · exact (hs.withQueue rest).releaseReset

end Sys2Proof.Machine
end

section
/-! PROOFS. The statements of 10_state.md on the registers the host reads and writes (rules R21, R24, R27, R30, R37) and on
the reset values (rule R43). -/

namespace Sys2Proof.Machine

/-! ## Where the registers stand -/

theorem hostReg_control {a : HostAddr} (h : a.toNat / 4 < 16) : hostReg a = controlReg (a.toNat / 4) := by
  rw [hostReg_word, if_pos h]

theorem hostReg_field {a : HostAddr} (hlo : 16 ≤ a.toNat / 4) (hhi : a.toNat / 4 < 32) :
    hostReg a = fieldHalf (a.toNat / 4 - 16) := by
  rw [hostReg_word, if_neg (by omega), if_pos hhi]

theorem fieldHalf_low (i : RegName) : fieldHalf (2 * i.val) = .fieldLow i := by
  simp [fieldHalf]

theorem fieldHalf_high (i : RegName) : fieldHalf (2 * i.val + 1) = .fieldHigh i := by
  have hdiv : (2 * i.val + 1) / 2 = i.val := by omega
  simp [fieldHalf, hdiv]

section

variable {a : HostAddr} {i : RegName}

theorem hostReg_ctrl (h : a.toNat / 4 = 0) : hostReg a = .ctrl := by
  rw [hostReg_control (by omega), h]
  rfl

theorem hostReg_status (h : a.toNat / 4 = 1) : hostReg a = .status := by
  rw [hostReg_control (by omega), h]
  rfl

theorem hostReg_flen (h : a.toNat / 4 = 3) : hostReg a = .flen := by
  rw [hostReg_control (by omega), h]
  rfl

theorem hostReg_fieldLow (h : a.toNat / 4 = 16 + 2 * i.val) : hostReg a = .fieldLow i := by
  rw [hostReg_field (by omega) (by omega), h, Nat.add_sub_cancel_left, fieldHalf_low]

theorem hostReg_fieldHigh (h : a.toNat / 4 = 16 + 2 * i.val + 1) : hostReg a = .fieldHigh i := by
  rw [hostReg_field (by omega) (by omega), h, Nat.add_assoc, Nat.add_sub_cancel_left, fieldHalf_high]

/-! What the host reads and writes there. -/

theorem hostRead_ctrl (h : a.toNat / 4 = 0) (s : State) : hostRead s a = s.ctrl.toWord := by
  simp [hostRead, hostReg_ctrl h]

theorem hostRead_status (h : a.toNat / 4 = 1) (s : State) : hostRead s a = s.statusWord := by
  simp [hostRead, hostReg_status h]

theorem hostRead_flen (h : a.toNat / 4 = 3) (s : State) : hostRead s a = s.flen.setWidth 32 := by
  simp [hostRead, hostReg_flen h]

theorem hostRead_fieldLow (h : a.toNat / 4 = 16 + 2 * i.val) (s : State) :
    hostRead s a = (s.readReg i).extractLsb' 0 32 := by
  simp [hostRead, hostReg_fieldLow h]

theorem hostRead_fieldHigh (h : a.toNat / 4 = 16 + 2 * i.val + 1) (s : State) :
    hostRead s a = (s.readReg i).extractLsb' 32 32 := by
  simp [hostRead, hostReg_fieldHigh h]

theorem hostWrite_ctrl (h : a.toNat / 4 = 0) (w : Word) (s : State) :
    hostWrite a w s = .next (s.writeCtrl w) := by
  simp [hostWrite, hostReg_ctrl h]

theorem hostWrite_status (h : a.toNat / 4 = 1) (w : Word) (s : State) :
    hostWrite a w s = .next (s.writeStatus w) := by
  simp [hostWrite, hostReg_status h]

theorem hostWrite_flen (h : a.toNat / 4 = 3) (w : Word) (s : State) :
    hostWrite a w s = .next (s.writeFlen w) := by
  simp [hostWrite, hostReg_flen h]

theorem hostWrite_fieldLow (h : a.toNat / 4 = 16 + 2 * i.val) (w : Word) (s : State) :
    hostWrite a w s = .next (s.writeFieldLow i w) := by
  simp [hostWrite, hostReg_fieldLow h]

theorem hostWrite_fieldHigh (h : a.toNat / 4 = 16 + 2 * i.val + 1) (w : Word) (s : State) :
    hostWrite a w s = .next (s.writeFieldHigh i w) := by
  simp [hostWrite, hostReg_fieldHigh h]

end

/-! ## CTRL (rule R27) -/

theorem Ctrl.toWord_toNat (c : Ctrl) : c.toWord.toNat = 2 * c.faultIe.toNat + c.cellidMode.toNat := by
  obtain ⟨cellidMode, faultIe⟩ := c
  cases cellidMode <;> cases faultIe <;> rfl

/-- A word written to CTRL reads back as its low two bits. -/
theorem Ctrl.toWord_ofWord_toNat (w : Word) : (Ctrl.ofWord w).toWord.toNat = w.toNat % 4 := by
  have h0 : (w.getLsbD 0).toNat = w.toNat / 1 % 2 := Nat.toNat_testBit w.toNat 0
  have h1 : (w.getLsbD 1).toNat = w.toNat / 2 % 2 := Nat.toNat_testBit w.toNat 1
  rw [Ctrl.toWord_toNat, Ctrl.ofWord, h0, h1]
  omega

/-- Settles O47: the write is `State.writeCtrl`, which changes CTRL alone. -/
theorem ctrlHoldsItsTwoBits : Obligations.CtrlHoldsItsTwoBits := by
  intro a w s ha
  refine ⟨s.writeCtrl w, hostWrite_ctrl ha w s, ?_, rfl, rfl, ?_⟩
  · rw [hostRead_ctrl ha, State.writeCtrl_ctrl, Ctrl.toWord_ofWord_toNat]
  · simp [SameFieldRegs, SameFbuf, SameAbuf, SameHostSide]

/-! ## STATUS (rule R30) -/

section

variable (s : State) (w : Word)

theorem State.writeStatus_fault :
    (s.writeStatus w).status.fault = if w.getLsbD 0 then false else s.status.fault := by
  unfold State.writeStatus
  split <;> simp

theorem State.writeStatus_cause :
    (s.writeStatus w).status.cause = if w.getLsbD 0 then 0 else s.status.cause := by
  unfold State.writeStatus
  split <;> simp

theorem State.writeStatus_nondec :
    (s.writeStatus w).status.nondec = if w.getLsbD 8 then false else s.status.nondec := by
  unfold State.writeStatus
  split <;> cases w.getLsbD 8 <;> simp

theorem State.writeStatus_ackv :
    (s.writeStatus w).status.ackv = if w.getLsbD 9 then false else s.status.ackv := by
  unfold State.writeStatus
  split <;> cases w.getLsbD 9 <;> simp

end

/-- The bits of STATUS, one by one up to IRQ, and zeros above it. -/
theorem State.statusWord_getLsbD (s : State) (j : Nat) :
    s.statusWord.getLsbD j =
      if j = 0 then s.status.fault else if 4 ≤ j ∧ j ≤ 7 then s.status.cause.getLsbD (j - 4)
      else if j = 8 then s.status.nondec else if j = 9 then s.status.ackv
      else if j = 10 then s.irq else false := by
  simp only [State.statusWord, BitVec.getLsbD_append, BitVec.getLsbD_ofBool, BitVec.getLsbD_zero]
  rcases Nat.lt_or_ge j 11 with hj | hj
  · interval_cases j <;> simp
  · obtain ⟨k, rfl⟩ := Nat.exists_eq_add_of_le' hj
    simp

/-- Settles O46: the read bit by bit, the write field by field. -/
theorem statusReadsItsFieldsAndClearsOnOnes : Obligations.StatusReadsItsFieldsAndClearsOnOnes := by
  intro a w s ha
  refine ⟨fun j _ => ?_, s.writeStatus w, hostWrite_status ha w s, s.writeStatus_fault w, s.writeStatus_cause w,
    s.writeStatus_nondec w, s.writeStatus_ackv w, ?_⟩
  · rw [hostRead_status ha]
    exact s.statusWord_getLsbD j
  · simp [SameFieldRegs, SameFbuf, SameAbuf, SameHostSide]

/-! ## FLEN (rule R24) -/

section

variable {s : State} {w : Word}

theorem State.writeFlen_past (h : 512 < w.toNat) : s.writeFlen w = s.recordFault .hostrange 0 w :=
  if_pos h

theorem State.writeFlen_fits (h : w.toNat ≤ 512) : s.writeFlen w = { s with flen := w.setWidth 10, cur := 0 } :=
  if_neg (not_lt.mpr h)

theorem State.writeFlen_flen_toNat (h : w.toNat ≤ 512) : (s.writeFlen w).flen.toNat = w.toNat := by
  rw [State.writeFlen_fits h, BitVec.toNat_setWidth, Nat.mod_eq_of_lt (by omega)]

theorem State.writeFlen_frame (h : w.toNat ≤ 512) :
    (s.writeFlen w).status = s.status ∧ (s.writeFlen w).faultCmd = s.faultCmd
      ∧ (s.writeFlen w).faultInfo = s.faultInfo := by
  rw [State.writeFlen_fits h]
  exact ⟨rfl, rfl, rfl⟩

end

/-- Settles O45: a value up to 512 is stored, one above it is the HOSTRANGE record, or nothing while a fault is
pending. -/
theorem flenWriteStartsAFrameOrRaisesHostrange : Obligations.FlenWriteStartsAFrameOrRaisesHostrange := by
  intro a w s ha
  rw [hostWrite_flen ha]
  refine ⟨fun hfit => ?_, fun hpast hfault => ?_, fun hpast hfault => ?_⟩
  · have hcur : (s.writeFlen w).cur.toNat = 0 := by rw [State.writeFlen_fits hfit]; rfl
    have hread : (hostRead (s.writeFlen w) a).toNat = w.toNat := by
      rw [hostRead_flen ha, BitVec.toNat_setWidth, State.writeFlen_flen_toNat hfit]
      exact Nat.mod_eq_of_lt w.isLt
    refine ⟨_, rfl, State.writeFlen_flen_toNat hfit, hcur, hread, ?_⟩
    simp [SameFieldRegs, SameFbuf, SameAbuf, SameHostSide, State.writeFlen_frame hfit]
  · rw [State.writeFlen_past hpast]
    exact ⟨_, rfl, State.recordFault_recorded hfault .hostrange 0 w _ (word_info w)⟩
  · rw [State.writeFlen_past hpast, State.recordFault_pending hfault]

/-! ## The field registers (rule R21) -/

theorem append_word_toNat (hi lo : Word) : (hi ++ lo : Long).toNat = hi.toNat * 2 ^ 32 + lo.toNat := by
  rw [BitVec.toNat_append, Nat.shiftLeft_eq, or_eq_add _ _ _ lo.isLt]

theorem extract_low32_toNat (v : Long) : (v.extractLsb' 0 32).toNat = v.toNat % 2 ^ 32 := by
  rw [BitVec.extractLsb'_toNat, Nat.shiftRight_zero]

theorem extract_high32_toNat (v : Long) : (v.extractLsb' 32 32).toNat = v.toNat / 2 ^ 32 := by
  rw [BitVec.extractLsb'_toNat, Nat.shiftRight_eq_div_pow]
  omega

theorem State.writeFieldLow_toNat (s : State) (i : RegName) (w : Word) :
    ((s.writeFieldLow i w).readReg i).toNat = (s.readReg i).toNat / 2 ^ 32 * 2 ^ 32 + w.toNat := by
  rw [State.writeFieldLow, State.readReg_writeReg_same, append_word_toNat, extract_high32_toNat]

theorem State.writeFieldHigh_toNat (s : State) (i : RegName) (w : Word) :
    ((s.writeFieldHigh i w).readReg i).toNat = w.toNat * 2 ^ 32 + (s.readReg i).toNat % 2 ^ 32 := by
  rw [State.writeFieldHigh, State.readReg_writeReg_same, append_word_toNat, extract_low32_toNat]

/-- Settles O48, low half and high half apart. -/
theorem fieldRegisterHalvesReadAndWrite : Obligations.FieldRegisterHalvesReadAndWrite := by
  intro i high a w s ha
  cases high with
  | false =>
    rw [hostRead_fieldLow ha, hostWrite_fieldLow ha]
    exact ⟨extract_low32_toNat _, _, rfl, s.writeFieldLow_toNat i w, onlyFieldReg_writeReg s i _⟩
  | true =>
    rw [hostRead_fieldHigh ha, hostWrite_fieldHigh ha]
    exact ⟨extract_high32_toNat _, _, rfl, s.writeFieldHigh_toNat i w, onlyFieldReg_writeReg s i _⟩

/-! ## CMD (rule R37) -/

theorem commandWrite_of_decode {w : Word} {i : Instr} {s : State} (hf : s.status.fault = false)
    (hd : decode w = .ok i) : commandWrite w s = exec i s := by
  simp [commandWrite, hf, hd]

theorem step_write {s : State} {a : HostAddr} {w : Word} {rest : List BusEvent}
    (hq : s.busQueue = .write a w :: rest) (hr : s.inReset = false) : step s = hostWrite a w (s.withQueue rest) := by
  simp [step_cons hq, busEvent, hr]

/-- Settles O34: the step is the host write, the host write is the CMD write, and that runs the decoded command. -/
theorem stepRunsTheDecodedCommand : Obligations.StepRunsTheDecodedCommand := by
  intro s a w i rest hq ha hr hf hd
  rw [step_write hq hr, hostWrite_cmd ha]
  exact commandWrite_of_decode hf hd

/-! ## The reset values (rule R43) -/

section

variable (cfg : CrcCfg) (n : Nat)

theorem State.readReg_afterReset (r : RegName) : (State.afterReset cfg n).readReg r = 0 := by
  simp [State.readReg, State.afterReset]

theorem State.abufByte_afterReset (k : Nat) : (State.afterReset cfg n).abufByte k = 0 := by
  simp [State.abufByte, State.afterReset]

end

theorem hostRead_ctrl_of_clear {s : State} (h : s.ctrl = { cellidMode := false, faultIe := false }) :
    hostRead s 0x000 = 0 := by
  rw [hostRead_ctrl rfl, h]
  rfl

theorem hostRead_status_of_clear {s : State}
    (h : s.status = { fault := false, cause := 0, nondec := false, ackv := false }) : hostRead s 0x004 = 0 := by
  rw [hostRead_status rfl]
  simp [State.statusWord, State.irq, h]

/-- Settles O44: a release of an asserted reset answers `State.afterReset`, and the reset state is one such state. -/
theorem releasingResetGivesTheResetValues : Obligations.ReleasingResetGivesTheResetValues := by
  refine ⟨fun s rest hq hr => ?_, State.readReg_afterReset _ _, rfl, rfl, rfl, hostRead_ctrl_of_clear rfl,
    hostRead_status_of_clear rfl, rfl, rfl, rfl, State.abufByte_afterReset _ _, rfl⟩
  have hstep : step s = .next (s.withQueue rest).releaseReset := step_cons hq
  rw [State.releaseReset_of_asserted (by simpa using hr)] at hstep
  exact ⟨_, hstep, State.readReg_afterReset s.crcCfg (s.epoch + 1), rfl, rfl, rfl, hostRead_ctrl_of_clear rfl,
    hostRead_status_of_clear rfl, rfl, rfl, rfl, State.abufByte_afterReset s.crcCfg (s.epoch + 1), rfl, rfl⟩

end Sys2Proof.Machine
end

section
/-! PROOFS. The statements of 10_state.md on what a step can change: the fault record (rule R31), NONDEC and ACKV (rules R32,
R33) and FBUF (rule R38). -/

namespace Sys2Proof.Machine

/-! ## FBUF (rule R38) -/

theorem Completes.epoch_eq {s t : State} (h : Completes s t) : t.epoch = s.epoch := by
  rw [h]

theorem exec_fbufByte {i : Instr} {s t : State} (h : exec i s = .next t) (b : Nat) : t.fbufByte b = s.fbufByte b := by
  rcases exec_cases h with hc | ⟨info, rfl⟩ | ⟨-, info, rfl⟩
  · rw [State.fbufByte, State.fbufByte, hc.fbuf_eq, hc.epoch_eq]
  · exact s.fbufByte_recordFault _ _ _ b
  · exact s.fbufByte_recordFault _ _ _ b

theorem commandWrite_fbufByte {w : Word} {s t : State} (h : commandWrite w s = .next t) (b : Nat) :
    t.fbufByte b = s.fbufByte b := by
  rcases commandWrite_cases h with ⟨-, rfl⟩ | ⟨-, -, rfl⟩ | ⟨-, i, -, hx⟩
  · rfl
  · exact s.fbufByte_recordFault _ _ _ b
  · exact exec_fbufByte hx b

/-- A word write changes the four bytes of its word, each to the lane of its place (20_memory.md rule R66). -/
theorem State.fbufByte_writeFbufWord_lane (s : State) (k b : Nat) (w : Word) :
    (s.writeFbufWord k w).fbufByte b = if b / 4 = k then laneByte w (b % 4) else s.fbufByte b := by
  rw [State.fbufByte_writeFbufWord]
  by_cases hk : b / 4 = k
  · have hb : b = 4 * k + b % 4 := by omega
    have hlane := Nat.mod_lt b (show 0 < 4 by norm_num)
    rw [if_pos hk]
    generalize b % 4 = j at hb hlane ⊢
    subst hb
    interval_cases j <;> simp
  · rw [if_neg (by omega), if_neg (by omega), if_neg (by omega), if_neg (by omega), if_neg hk]

/-- A host write changes an FBUF byte only when it is a write of the window word that holds it. -/
theorem hostWrite_fbufByte {a : HostAddr} {w : Word} {s t : State} {b : Nat} (h : hostWrite a w s = .next t)
    (hne : t.fbufByte b ≠ s.fbufByte b) : hostReg a = .fbufWord (b / 4) ∧ t.fbufByte b = laneByte w (b % 4) := by
  rcases hostWrite_cases h with
    ⟨-, hc⟩ | ⟨-, rfl⟩ | ⟨-, rfl⟩ | ⟨-, rfl⟩ | ⟨i, -, rfl⟩ | ⟨i, -, rfl⟩ | ⟨k, hk, rfl⟩ | rfl
  · exact absurd (commandWrite_fbufByte hc b) hne
  · exact absurd (s.fbufByte_writeCtrl w b) hne
  · exact absurd (s.fbufByte_writeStatus w b) hne
  · exact absurd (s.fbufByte_writeFlen w b) hne
  · exact absurd rfl hne
  · exact absurd rfl hne
  · rw [State.fbufByte_writeFbufWord_lane] at hne ⊢
    split at hne
    · rename_i hb
      exact ⟨hb ▸ hk, if_pos hb⟩
    · exact absurd rfl hne
  · exact absurd rfl hne

/-- A release changes nothing unless the reset input is asserted. -/
theorem State.releaseReset_cases (s : State) : s.inReset = true ∨ s.releaseReset = s := by
  cases hr : s.inReset with
  | true => exact .inl rfl
  | false => exact .inr (State.releaseReset_of_released hr)

/-- Settles O42, event by event: a write by `hostWrite_fbufByte`; a release changes FBUF only when reset is asserted. -/
theorem fbufChangesOnlyByWindowWrites : Obligations.FbufChangesOnlyByWindowWrites := by
  intro s t b h hne
  rcases step_cases h with ⟨-, rfl⟩ | ⟨a, w, rest, hq, -, hw⟩ | ⟨a, rest, -, -, rfl⟩ | ⟨rest, -, rfl⟩ | ⟨rest, hq, rfl⟩
  · exact absurd rfl hne
  · obtain ⟨hreg, hlane⟩ := hostWrite_fbufByte hw hne
    obtain ⟨hk, ha⟩ := standsAt_of_hostReg hreg
    exact .inl ⟨a, w, rest, hq, ha, by omega, by rw [hlane, laneByte_toNat]⟩
  · exact absurd rfl hne
  · exact absurd rfl hne
  · rcases (s.withQueue rest).releaseReset_cases with hr | he
    · exact .inr ⟨hr, rest, hq⟩
    · exact absurd (congrArg (·.fbufByte b) he) hne

/-! ## The fault record (rule R31) -/

/-- FAULT, CAUSE, FAULT_CMD and FAULT_INFO are in t as in s. -/
def SameRecord (s t : State) : Prop :=
  t.status.fault = s.status.fault ∧ t.status.cause = s.status.cause ∧ t.faultCmd = s.faultCmd
    ∧ t.faultInfo = s.faultInfo

theorem SameRecord.refl (s : State) : SameRecord s s := ⟨rfl, rfl, rfl, rfl⟩

theorem commandWrite_pending {w : Word} {s : State} (hf : s.status.fault = true) : commandWrite w s = .next s := by
  simp [commandWrite, hf]

theorem State.writeFlen_sameRecord {s : State} (hf : s.status.fault = true) (w : Word) :
    SameRecord s (s.writeFlen w) := by
  unfold State.writeFlen
  split
  · rw [State.recordFault_pending hf]
    exact SameRecord.refl s
  · exact SameRecord.refl s

theorem State.writeStatus_sameRecord {s : State} {w : Word} (hw : w.getLsbD 0 = false) :
    SameRecord s (s.writeStatus w) := by
  rw [SameRecord, State.writeStatus_fault, State.writeStatus_cause, hw]
  simp

/-- While a fault is pending a host write keeps the record, unless it writes STATUS with bit 0 set. -/
theorem hostWrite_pending {a : HostAddr} {w : Word} {s t : State} (hf : s.status.fault = true)
    (h : hostWrite a w s = .next t) :
    SameRecord s t ∨ (hostReg a = .status ∧ w.getLsbD 0 = true ∧ t = s.writeStatus w) := by
  rcases hostWrite_cases h with
    ⟨-, hc⟩ | ⟨-, rfl⟩ | ⟨hreg, rfl⟩ | ⟨-, rfl⟩ | ⟨i, -, rfl⟩ | ⟨i, -, rfl⟩ | ⟨k, -, rfl⟩ | rfl
  · rw [commandWrite_pending hf] at hc
    injection hc with hc
    exact .inl (hc ▸ SameRecord.refl s)
  · exact .inl (SameRecord.refl _)
  · cases hw : w.getLsbD 0 with
    | false => exact .inl (State.writeStatus_sameRecord hw)
    | true => exact .inr ⟨hreg, rfl, rfl⟩
  · exact .inl (State.writeFlen_sameRecord hf w)
  · exact .inl (SameRecord.refl _)
  · exact .inl (SameRecord.refl _)
  · exact .inl (SameRecord.refl _)
  · exact .inl (SameRecord.refl _)

/-- Settles O40, event by event: a write by `hostWrite_pending`; a release changes the record only when reset is
asserted. -/
theorem onlyTheHostEndsAPendingFault : Obligations.OnlyTheHostEndsAPendingFault := by
  intro s t h hf
  have hsame (u : State) (hu : SameRecord s u) : u.status.fault = true ∧ u.status.cause = s.status.cause
      ∧ u.faultCmd = s.faultCmd ∧ u.faultInfo = s.faultInfo := hf ▸ hu
  rcases step_cases h with ⟨-, rfl⟩ | ⟨a, w, rest, hq, -, hw⟩ | ⟨a, rest, -, -, rfl⟩ | ⟨rest, -, rfl⟩ | ⟨rest, hq, rfl⟩
  · exact .inl (hsame _ (SameRecord.refl _))
  · rcases hostWrite_pending (s := s.withQueue rest) hf hw with hkeep | ⟨hreg, hbit, rfl⟩
    · exact .inl (hsame t hkeep)
    · refine .inr (.inl ⟨a, w, rest, hq, standsAt_of_hostReg hreg, hbit, ?_⟩)
      simp [State.writeStatus_fault, State.writeStatus_cause, hbit]
  · exact .inl (hsame _ (SameRecord.refl _))
  · exact .inl (hsame _ (SameRecord.refl _))
  · rcases (s.withQueue rest).releaseReset_cases with hr | he
    · exact .inr (.inr ⟨hr, rest, hq⟩)
    · rw [he]
      exact .inl (hsame _ (SameRecord.refl _))

/-! ## NONDEC and ACKV (rules R32, R33) -/

theorem SameFlags.refl (s : State) : SameFlags s s := ⟨rfl, rfl⟩

theorem State.recordFault_sameFlags (s : State) (c : Cause) (cmd info : Word) :
    SameFlags s (s.recordFault c cmd info) :=
  ⟨s.recordFault_nondec c cmd info, s.recordFault_ackv c cmd info⟩

theorem withinFrame_sameFlags {i : Instr} {a : Nat} {s d t : State} (h : withinFrame i a s d = .next t)
    (hd : SameFlags s d) : SameFlags s t := by
  rcases withinFrame_cases h with ⟨-, rfl⟩ | ⟨-, rfl⟩
  · exact hd
  · exact s.recordFault_sameFlags _ _ _

/-- No command but XIMEI and ACK touches NONDEC or ACKV; XIMEI keeps ACKV and never clears NONDEC, ACK keeps NONDEC and
never clears ACKV. -/
theorem exec_flags_cases {i : Instr} {s t : State} (h : exec i s = .next t) :
    SameFlags s t
      ∨ ((∃ rd, i = .ximei rd) ∧ t.status.ackv = s.status.ackv ∧ (s.status.nondec = true → t.status.nondec = true))
      ∨ ((∃ r q, i = .ack r q) ∧ t.status.nondec = s.status.nondec
          ∧ (s.status.ackv = true → t.status.ackv = true)) := by
  cases i with
  | ximei rd =>
    rcases withinFrame_cases h with ⟨-, rfl⟩ | ⟨-, rfl⟩
    · exact .inr (.inl ⟨⟨rd, rfl⟩, rfl, fun hs => by simp [hs]⟩)
    · exact .inl (s.recordFault_sameFlags _ _ _)
  | ack r q =>
    injection h with h
    subst h
    exact .inr (.inr ⟨⟨r, q, rfl⟩, rfl, fun _ => rfl⟩)
  | seek | skip | rdu8 | rdu16 | rdu32 | xtime | crcm => exact .inl (withinFrame_sameFlags h (SameFlags.refl s))
  | skipr r k =>
    rcases exec_skipr_cases h with ⟨info, rfl⟩ | hskip
    · exact .inl (s.recordFault_sameFlags _ _ _)
    · exact .inl (withinFrame_sameFlags hskip (SameFlags.refl s))
  | tail imm => rcases exec_tail_cases h with rfl | rfl <;> exact .inl (SameFlags.refl _)
  | avail | movi | xbf | xsgn | xcell | crcinit | crci | crcr | crcrd =>
    injection h with h
    exact .inl (h ▸ SameFlags.refl s)

/-- A command that changes NONDEC is an XIMEI, and NONDEC was 0. -/
theorem exec_nondec_ne {i : Instr} {s t : State} (h : exec i s = .next t)
    (hne : t.status.nondec ≠ s.status.nondec) : s.status.nondec = false ∧ ∃ rd, i = .ximei rd := by
  rcases exec_flags_cases h with hkeep | ⟨hi, -, hstay⟩ | ⟨-, hkeep, -⟩
  · exact absurd hkeep.1 hne
  · exact ⟨Bool.eq_false_of_not_eq_true fun hs => hne ((hstay hs).trans hs.symm), hi⟩
  · exact absurd hkeep hne

/-- A command that changes ACKV is an ACK, and ACKV was 0. -/
theorem exec_ackv_ne {i : Instr} {s t : State} (h : exec i s = .next t)
    (hne : t.status.ackv ≠ s.status.ackv) : s.status.ackv = false ∧ ∃ r q, i = .ack r q := by
  rcases exec_flags_cases h with hkeep | ⟨-, hkeep, -⟩ | ⟨hi, -, hstay⟩
  · exact absurd hkeep.2 hne
  · exact absurd hkeep hne
  · exact ⟨Bool.eq_false_of_not_eq_true fun hs => hne ((hstay hs).trans hs.symm), hi⟩

theorem State.writeFlen_sameFlags (s : State) (w : Word) : SameFlags s (s.writeFlen w) := by
  unfold State.writeFlen
  split
  · exact s.recordFault_sameFlags _ _ _
  · exact SameFlags.refl s

/-- A host write changes NONDEC or ACKV only as a command or as a write of STATUS. -/
theorem hostWrite_flags_cases {a : HostAddr} {w : Word} {s t : State} (h : hostWrite a w s = .next t) :
    SameFlags s t ∨ (hostReg a = .cmd ∧ ∃ i, decode w = .ok i ∧ exec i s = .next t)
      ∨ (hostReg a = .status ∧ t = s.writeStatus w) := by
  rcases hostWrite_cases h with
    ⟨hreg, hc⟩ | ⟨-, rfl⟩ | hstatus | ⟨-, rfl⟩ | ⟨i, -, rfl⟩ | ⟨i, -, rfl⟩ | ⟨k, -, rfl⟩ | rfl
  · rcases commandWrite_cases hc with ⟨-, rfl⟩ | ⟨-, -, rfl⟩ | ⟨-, i, hd, hx⟩
    · exact .inl (SameFlags.refl _)
    · exact .inl (s.recordFault_sameFlags _ _ _)
    · exact .inr (.inl ⟨hreg, i, hd, hx⟩)
  · exact .inl (SameFlags.refl _)
  · exact .inr (.inr hstatus)
  · exact .inl (s.writeFlen_sameFlags w)
  · exact .inl (SameFlags.refl _)
  · exact .inl (SameFlags.refl _)
  · exact .inl (SameFlags.refl _)
  · exact .inl (SameFlags.refl _)

/-- A step changes NONDEC or ACKV only as a command, as a write of STATUS or as a reset. -/
theorem step_flags_cases {s t : State} (h : step s = .next t) :
    SameFlags s t
      ∨ (∃ a w rest i, s.busQueue = .write a w :: rest ∧ a.toNat / 4 = 2 ∧ decode w = .ok i
          ∧ exec i (s.withQueue rest) = .next t)
      ∨ (∃ a w rest, s.busQueue = .write a w :: rest ∧ a.toNat / 4 = 1 ∧ t = (s.withQueue rest).writeStatus w)
      ∨ (∃ rest, s.inReset = true ∧ s.busQueue = .resetRelease :: rest) := by
  rcases step_cases h with ⟨-, rfl⟩ | ⟨a, w, rest, hq, -, hw⟩ | ⟨a, rest, -, -, rfl⟩ | ⟨rest, -, rfl⟩ | ⟨rest, hq, rfl⟩
  · exact .inl (SameFlags.refl _)
  · rcases hostWrite_flags_cases hw with hkeep | ⟨hreg, i, hd, hx⟩ | ⟨hreg, rfl⟩
    · exact .inl hkeep
    · exact .inr (.inl ⟨a, w, rest, i, hq, standsAt_of_hostReg hreg, hd, hx⟩)
    · exact .inr (.inr (.inl ⟨a, w, rest, hq, standsAt_of_hostReg hreg, rfl⟩))
  · exact .inl (SameFlags.refl _)
  · exact .inl (SameFlags.refl _)
  · rcases (s.withQueue rest).releaseReset_cases with hr | he
    · exact .inr (.inr (.inr ⟨rest, hr, hq⟩))
    · rw [he]
      exact .inl (SameFlags.refl _)

/-- A flag that a write of STATUS changes was 1, and its bit is set. -/
theorem clearedBit_ne {bit flag : Bool} (h : (if bit then false else flag) ≠ flag) : flag = true ∧ bit = true := by
  cases bit with
  | false => exact absurd rfl h
  | true => exact ⟨by simpa using h.symm, rfl⟩

/-- Settles O41: what `step_flags_cases` leaves is taken apart for each flag by what XIMEI, ACK and a STATUS write do. -/
theorem nondecAndAckvChangeOnlyAsTheRulesSay : Obligations.NondecAndAckvChangeOnlyAsTheRulesSay := by
  intro s t h
  constructor
  · intro hne
    rcases step_flags_cases h with
      hkeep | ⟨a, w, rest, i, hq, ha, hd, hx⟩ | ⟨a, w, rest, hq, ha, rfl⟩ | ⟨rest, hreset⟩
    · exact absurd hkeep.1 hne
    · obtain ⟨hs, rd, rfl⟩ := exec_nondec_ne hx hne
      exact ⟨rest, .inl ⟨hs, a, w, rd, hq, ha, hd⟩⟩
    · rw [State.writeStatus_nondec] at hne
      obtain ⟨hs, hbit⟩ := clearedBit_ne hne
      exact ⟨rest, .inr (.inl ⟨hs, a, w, hq, ha, hbit⟩)⟩
    · exact ⟨rest, .inr (.inr hreset)⟩
  · intro hne
    rcases step_flags_cases h with
      hkeep | ⟨a, w, rest, i, hq, ha, hd, hx⟩ | ⟨a, w, rest, hq, ha, rfl⟩ | ⟨rest, hreset⟩
    · exact absurd hkeep.2 hne
    · obtain ⟨hs, r, q, rfl⟩ := exec_ackv_ne hx hne
      exact ⟨rest, .inl ⟨hs, a, w, r, q, hq, ha, hd⟩⟩
    · rw [State.writeStatus_ackv] at hne
      obtain ⟨hs, hbit⟩ := clearedBit_ne hne
      exact ⟨rest, .inr (.inl ⟨hs, a, w, hq, ha, hbit⟩)⟩
    · exact ⟨rest, .inr (.inr hreset)⟩

end Sys2Proof.Machine
end

section
/-! PROOFS. The statements of 20_memory.md on host accesses: the address map (rules R64, R65), the windows (rules R66, R67),
reserved and read-only addresses (rule R68), and the accesses through the step (rule R75; 60_exceptions.md rule R215). -/

namespace Sys2Proof.Machine

/-! ## The address map, from the word number to the register -/

/-- The register that stands at an address's word number is the one the address names (rule R64). -/
theorem hostReg_of_standsAt {a : HostAddr} {r : HostReg} (h : standsAt r (a.toNat / 4)) : hostReg a = r := by
  cases r with
  | ctrl | status | cmd | flen | cur | crc | faultCmd | faultInfo | id =>
    rw [standsAt] at h
    rw [hostReg_control (by omega), h]
    rfl
  | fieldLow i => exact hostReg_fieldLow h
  | fieldHigh i => exact hostReg_fieldHigh (h.trans (by omega))
  | abufWord k =>
    obtain ⟨hk, ha⟩ := h
    rw [hostReg_word, ha, if_neg (by omega), if_neg (by omega), if_neg (by omega), if_pos (by omega),
      Nat.add_sub_cancel_left]
  | fbufWord k =>
    obtain ⟨hk, ha⟩ := h
    rw [hostReg_word, ha, if_neg (by omega), if_neg (by omega), if_neg (by omega), if_neg (by omega), if_neg (by omega),
      if_pos (by omega), Nat.add_sub_cancel_left]
  | reserved =>
    have hs := hostReg_standsAt a
    generalize hostReg a = r at hs
    cases r with
    | reserved => rfl
    | ctrl | status | cmd | flen | cur | crc | faultCmd | faultInfo | id | fieldLow | fieldHigh | abufWord | fbufWord =>
      simp only [standsAt] at h hs
      omega

/-! ## The low address bits (rule R65) -/

theorem hostRead_congr {a b : HostAddr} (h : hostReg a = hostReg b) (s : State) : hostRead s a = hostRead s b := by
  simp only [hostRead, h]

theorem hostWrite_congr {a b : HostAddr} (h : hostReg a = hostReg b) (w : Word) (s : State) :
    hostWrite a w s = hostWrite b w s := by
  simp only [hostWrite, h]

/-- A and A & 0xFFC are addresses of one word. -/
theorem hostReg_aligned (a : HostAddr) : hostReg a = hostReg (a &&& 0xFFC) := by
  have h : (a &&& 0xFFC).toNat = a.toNat / 4 * 4 := wordAddr_eq a
  exact hostReg_congr (by omega)

/-- Settles O54: an access depends on its address through the register it names, and A names what A & 0xFFC names. -/
theorem addressBitsOneAndZeroAreIgnored : Obligations.AddressBitsOneAndZeroAreIgnored := fun a w s =>
  ⟨hostRead_congr (hostReg_aligned a) s, hostWrite_congr (hostReg_aligned a) w s⟩

/-! ## The windows (rules R66, R67) -/

/-- Lane j of the word of four consecutive bytes is byte j of them. -/
theorem laneByte_lanes_of_lt (f : Nat → Byte) (n : Nat) {j : Nat} (hj : j < 4) :
    laneByte (lanes (f n) (f (n + 1)) (f (n + 2)) (f (n + 3))) j = f (n + j) := by
  obtain ⟨h0, h1, h2, h3⟩ := laneByte_lanes (f n) (f (n + 1)) (f (n + 2)) (f (n + 3))
  interval_cases j
  · exact h0
  · exact h1
  · exact h2
  · exact h3

section

variable {a : HostAddr} {k : Nat}

theorem hostRead_fbufWord (hk : k < 128) (ha : a.toNat / 4 = 256 + k) (s : State) :
    hostRead s a
      = lanes (s.fbufByte (4 * k)) (s.fbufByte (4 * k + 1)) (s.fbufByte (4 * k + 2)) (s.fbufByte (4 * k + 3)) := by
  simp only [hostRead, hostReg_of_standsAt (r := .fbufWord k) ⟨hk, ha⟩]

theorem hostRead_abufWord (hk : k < 3) (ha : a.toNat / 4 = 192 + k) (s : State) :
    hostRead s a
      = lanes (s.abufByte (4 * k)) (s.abufByte (4 * k + 1)) (s.abufByte (4 * k + 2)) (s.abufByte (4 * k + 3)) := by
  simp only [hostRead, hostReg_of_standsAt (r := .abufWord k) ⟨hk, ha⟩]

theorem hostWrite_fbufWord (hk : k < 128) (ha : a.toNat / 4 = 256 + k) (w : Word) (s : State) :
    hostWrite a w s = .next (s.writeFbufWord k w) := by
  simp only [hostWrite, hostReg_of_standsAt (r := .fbufWord k) ⟨hk, ha⟩]

end

theorem State.fbufByte_writeFbufWord_same (s : State) (k : Nat) (w : Word) {j : Nat} (hj : j < 4) :
    (s.writeFbufWord k w).fbufByte (4 * k + j) = laneByte w j := by
  rw [State.fbufByte_writeFbufWord_lane, if_pos (by omega), Nat.mul_add_mod, Nat.mod_eq_of_lt hj]

theorem State.fbufByte_writeFbufWord_other (s : State) {k b : Nat} (w : Word) (hb : b < 4 * k ∨ 4 * k + 4 ≤ b) :
    (s.writeFbufWord k w).fbufByte b = s.fbufByte b := by
  rw [State.fbufByte_writeFbufWord_lane, if_neg (by omega)]

/-- A window word reads back as it was written. -/
theorem hostRead_writeFbufWord {a : HostAddr} {k : Nat} (hk : k < 128) (ha : a.toNat / 4 = 256 + k) (w : Word)
    (s : State) : hostRead (s.writeFbufWord k w) a = w := by
  have h0 := s.fbufByte_writeFbufWord_same k w (j := 0) (by omega)
  rw [Nat.add_zero] at h0
  rw [hostRead_fbufWord hk ha, h0, State.fbufByte_writeFbufWord_same _ _ _ (by omega),
    State.fbufByte_writeFbufWord_same _ _ _ (by omega), State.fbufByte_writeFbufWord_same _ _ _ (by omega),
    lanes_laneByte]

/-- Settles O49: the write is `State.writeFbufWord`, and both directions go lane by lane. -/
theorem fbufWindowReadsAndWritesFourBytes : Obligations.FbufWindowReadsAndWritesFourBytes := by
  intro k a w s hk ha
  refine ⟨fun j hj => ?_, s.writeFbufWord k w, hostWrite_fbufWord hk ha w s, hostRead_writeFbufWord hk ha w s,
    fun j hj => ?_, fun b hb => s.fbufByte_writeFbufWord_other w hb, rfl⟩
  · rw [hostRead_fbufWord hk ha, ← laneByte_toNat, laneByte_lanes_of_lt s.fbufByte (4 * k) hj]
  · rw [State.fbufByte_writeFbufWord_same s k w hj, laneByte_toNat]

/-! ## Reserved and read-only addresses (rules R64, R68; 10_state.md rule R37) -/

theorem hostRead_eq_zero {a : HostAddr} (h : hostReg a = .cmd ∨ hostReg a = .reserved) (s : State) :
    hostRead s a = 0 := by
  rcases h with h | h <;> simp only [hostRead, h]

/-- Where no writable register stands, a write is ignored. -/
theorem hostWrite_ignored {a : HostAddr} (w : Word) (s : State)
    (ha : (4 ≤ a.toNat / 4 ∧ a.toNat / 4 ≤ 15) ∨ (32 ≤ a.toNat / 4 ∧ a.toNat / 4 ≤ 255) ∨ 384 ≤ a.toNat / 4) :
    hostWrite a w s = .next s := by
  have hs := hostReg_standsAt a
  unfold hostWrite
  generalize hostReg a = r at hs
  cases r with
  | cur | crc | faultCmd | faultInfo | id | abufWord | reserved => rfl
  | ctrl | status | cmd | flen | fieldLow | fieldHigh | fbufWord =>
    simp only [standsAt] at hs
    omega

/-- Settles O50: the read lane by lane; the window is among the addresses whose writes are ignored. -/
theorem abufWindowReadsAndIgnoresWrites : Obligations.AbufWindowReadsAndIgnoresWrites := by
  intro k a w s hk ha
  refine ⟨fun j hj => ?_, hostWrite_ignored w s (by omega)⟩
  rw [hostRead_abufWord hk ha, ← laneByte_toNat, laneByte_lanes_of_lt s.abufByte (4 * k) hj, State.abufByte]
  split <;> rfl

/-- Settles O51: the addresses that read 0 name CMD or nothing, and no writable register stands at the others. -/
theorem reservedAndReadOnlyAddresses : Obligations.ReservedAndReadOnlyAddresses := by
  intro a w s
  refine ⟨?_, hostWrite_ignored w s⟩
  rintro (hcmd | hreserved)
  · exact hostRead_eq_zero (.inl (hostReg_of_standsAt hcmd)) s
  · exact hostRead_eq_zero (.inr (hostReg_of_standsAt hreserved)) s

/-! ## What the read-only registers read (rule R64) -/

section

variable {a : HostAddr}

theorem hostRead_cur (h : a.toNat / 4 = 4) (s : State) : hostRead s a = s.cur.setWidth 32 := by
  simp only [hostRead, hostReg_of_standsAt (r := .cur) h]

theorem hostRead_crc (h : a.toNat / 4 = 5) (s : State) : hostRead s a = s.crc.setWidth 32 := by
  simp only [hostRead, hostReg_of_standsAt (r := .crc) h]

theorem hostRead_faultCmd (h : a.toNat / 4 = 6) (s : State) : hostRead s a = s.faultCmd := by
  simp only [hostRead, hostReg_of_standsAt (r := .faultCmd) h]

theorem hostRead_faultInfo (h : a.toNat / 4 = 7) (s : State) : hostRead s a = s.faultInfo := by
  simp only [hostRead, hostReg_of_standsAt (r := .faultInfo) h]

theorem hostRead_id (h : a.toNat / 4 = 8) (s : State) : hostRead s a = Config.idValue := by
  simp only [hostRead, hostReg_of_standsAt (r := .id) h]

end

/-- Settles O52, register by register; the three narrow ones are zero-extended, which keeps their number. -/
theorem readOnlyRegistersReadTheirValue : Obligations.ReadOnlyRegistersReadTheirValue := by
  intro a s
  refine ⟨fun h => ?_, fun h => ?_, fun h => ?_, fun h => hostRead_faultCmd h s, fun h => hostRead_faultInfo h s,
    fun h => hostRead_id h s⟩
  · rw [hostRead_flen h, BitVec.toNat_setWidth_of_le (by norm_num)]
  · rw [hostRead_cur h, BitVec.toNat_setWidth_of_le (by norm_num)]
  · rw [hostRead_crc h, BitVec.toNat_setWidth_of_le (by norm_num)]

/-! ## Accesses through the step -/

/-- What a read returns does not depend on the events to come. -/
@[simp] theorem hostRead_withQueue (s : State) (q : List BusEvent) (a : HostAddr) :
    hostRead (s.withQueue q) a = hostRead s a := rfl

theorem step_read {s : State} {a : HostAddr} {rest : List BusEvent} (hq : s.busQueue = .read a :: rest)
    (hr : s.inReset = false) : step s = .next ((s.withQueue rest).answerRead (hostRead s a)) := by
  simp [step_cons hq, busEvent, hr]

/-- Settles O53: the step takes the event and answers the read, and neither touches another field. -/
theorem hostReadsHaveNoSideEffect : Obligations.HostReadsHaveNoSideEffect := fun _ _ _ hq hr =>
  ⟨_, step_read hq hr, rfl, rfl, rfl⟩

/-- A write of STATUS changes STATUS alone. -/
theorem State.writeStatus_eq (s : State) (w : Word) :
    s.writeStatus w = { s with status := (s.writeStatus w).status } := by
  unfold State.writeStatus
  split <;> rfl

/-- What a host write leaves outside STATUS does not depend on STATUS, unless it runs a command or is a FLEN write out of
range (60_exceptions.md rule R215). -/
theorem hostWrite_withStatus {a : HostAddr} {w : Word} (hcmd : a.toNat / 4 ≠ 2) (hflen : a.toNat / 4 = 3 → w.toNat ≤ 512)
    (s : State) (st : Status) :
    ∃ t u, hostWrite a w s = .next t ∧ hostWrite a w { s with status := st } = .next u
      ∧ u = { t with status := u.status } := by
  have hs := hostReg_standsAt a
  unfold hostWrite
  generalize hostReg a = r at hs
  cases r with
  | cmd => exact absurd hs hcmd
  | status =>
    refine ⟨_, _, rfl, rfl, ?_⟩
    rw [State.writeStatus_eq s w, State.writeStatus_eq { s with status := st } w]
  | flen =>
    refine ⟨_, _, rfl, rfl, ?_⟩
    rw [State.writeFlen_fits (hflen hs), State.writeFlen_fits (hflen hs)]
  | ctrl | cur | crc | faultCmd | faultInfo | id | fieldLow | fieldHigh | abufWord | fbufWord | reserved =>
    exact ⟨_, _, rfl, rfl, rfl⟩

/-- Settles O60: both steps are host writes, after the event is taken, of states that differ in STATUS alone. -/
theorem stepPerformsTheHostWrite : Obligations.StepPerformsTheHostWrite := by
  intro s a w rest hq hr
  refine ⟨step_write hq hr, fun hcmd hflen st => ?_⟩
  have hother : step { s with status := st } = hostWrite a w { s.withQueue rest with status := st } := step_write hq hr
  rw [step_write hq hr, hother]
  exact hostWrite_withStatus hcmd hflen (s.withQueue rest) st

end Sys2Proof.Machine
end

section
/-! PROOFS. The statements of 20_memory.md on loaded frames: the position layout (rule R70) and the login layout
(rule R71). -/

namespace Sys2Proof.Machine

/-! ## Byte sequences in FBUF -/

/-- FBUF holds a byte sequence from address a on. -/
def State.HasBytes (s : State) (a : Nat) (bytes : List Byte) : Prop := s.fbufBytes a bytes.length = bytes

/-- Reading a range in two parts. -/
theorem State.fbufBytes_add (s : State) (a m n : Nat) :
    s.fbufBytes a (m + n) = s.fbufBytes a m ++ s.fbufBytes (a + m) n := by
  induction m generalizing a with
  | zero => simp [State.fbufBytes_zero]
  | succ m ih =>
    rw [Nat.succ_add_eq_add_succ, Nat.add_succ, State.fbufBytes_succ, State.fbufBytes_succ, ih, List.cons_append,
      Nat.add_assoc, Nat.add_comm 1 m]

@[simp] theorem State.hasBytes_nil (s : State) (a : Nat) : s.HasBytes a [] := rfl

@[simp] theorem State.hasBytes_cons (s : State) (a : Nat) (b : Byte) (bytes : List Byte) :
    s.HasBytes a (b :: bytes) ↔ s.fbufByte a = b ∧ s.HasBytes (a + 1) bytes :=
  List.cons_eq_cons

@[simp] theorem State.hasBytes_append (s : State) (a : Nat) (l m : List Byte) :
    s.HasBytes a (l ++ m) ↔ s.HasBytes a l ∧ s.HasBytes (a + l.length) m := by
  rw [State.HasBytes, List.length_append, State.fbufBytes_add]
  exact ⟨fun h => List.append_inj h (by simp), fun ⟨hl, hm⟩ => congrArg₂ (· ++ ·) hl hm⟩

section

variable {s : State} {a : Nat} {bytes : List Byte}

theorem State.HasBytes.fbufByte_eq (h : s.HasBytes a bytes) {k : Nat} (hk : k < bytes.length) :
    s.fbufByte (a + k) = bytes[k] := by
  have hread := s.fbufBytes_getElem? a _ k hk
  rw [h, List.getElem?_eq_getElem hk] at hread
  exact (Option.some.inj hread).symm

theorem State.HasBytes.fbufByte_eq_vector {n : Nat} {v : Vector Byte n} (h : s.HasBytes a v.toList) {k : Nat}
    (hk : k < n) : s.fbufByte (a + k) = v[k] :=
  (h.fbufByte_eq (by simpa using hk)).trans (Vector.getElem_toList _)

theorem State.HasBytes.memRead_eq (h : s.HasBytes a bytes) : s.memRead a bytes.length = bigEndian bytes :=
  congrArg bigEndian h

theorem HoldsBytes.hasBytes (h : HoldsBytes s bytes) : s.HasBytes 0 bytes := by
  obtain ⟨-, hbytes⟩ := h
  refine List.ext_getElem (s.fbufBytes_length 0 _) fun k hk hk' => ?_
  have hread := s.fbufBytes_getElem? 0 _ k hk'
  rw [List.getElem?_eq_getElem hk, Nat.zero_add, hbytes k _ (List.getElem?_eq_getElem hk')] at hread
  exact Option.some.inj hread

end

/-- The payload of a loaded frame stands from address 4 on (rule R69). -/
theorem HoldsBytes.payload {s : State} {fr : InboundFrame} (h : HoldsBytes s fr.bytes) : s.HasBytes 4 fr.payload := by
  have hbytes := h.hasBytes
  rw [InboundFrame.bytes, List.append_assoc, State.hasBytes_append, State.hasBytes_append] at hbytes
  obtain ⟨-, hpayload, -⟩ := hbytes
  exact hpayload

/-! ## Big-endian fields (rule R61) -/

@[simp] theorem length_halfBytes (v : Half) : (halfBytes v).length = 2 := rfl

@[simp] theorem length_wordBytes (w : Word) : (wordBytes w).length = 4 := rfl

theorem bigEndian_halfBytes (v : Half) : bigEndian (halfBytes v) = v.toNat := by
  simpa [bigEndian, halfBytes] using highByte_lowByte v

theorem bigEndian_wordBytes (w : Word) : bigEndian (wordBytes w) = w.toNat := by
  simp only [bigEndian, wordBytes, List.foldl_cons, List.foldl_nil, laneByte_toNat]
  omega

theorem State.HasBytes.half {s : State} {a : Nat} {v : Half} (h : s.HasBytes a (halfBytes v)) :
    s.memRead a 2 = v.toNat :=
  h.memRead_eq.trans (bigEndian_halfBytes v)

theorem State.HasBytes.word {s : State} {a : Nat} {w : Word} (h : s.HasBytes a (wordBytes w)) :
    s.memRead a 4 = w.toNat :=
  h.memRead_eq.trans (bigEndian_wordBytes w)

/-- Two nibbles as a byte, the first one the high nibble. -/
theorem append_nibble_toNat (hi lo : BitVec 4) : (hi ++ lo : Byte).toNat = hi.toNat * 16 + lo.toNat := by
  rw [BitVec.toNat_append, Nat.shiftLeft_eq, or_eq_add _ _ _ lo.isLt]
  norm_num

/-! ## The position layout (rule R70) -/

/-- The parts of a position payload, each at its address. -/
theorem PositionPayload.hasBytes_iff (p : PositionPayload) (s : State) :
    s.HasBytes 4 p.bytes ↔
      s.HasBytes 4 p.time.toList ∧ s.fbufByte 10 = p.gpsLength ++ p.satellites ∧ s.HasBytes 11 (wordBytes p.latitude)
        ∧ s.HasBytes 15 (wordBytes p.longitude) ∧ s.fbufByte 19 = p.speed ∧ s.HasBytes 20 (halfBytes p.courseFlags)
        ∧ s.HasBytes 22 p.reserved ∧ s.HasBytes (22 + p.reserved.length) p.rest.bytes
        ∧ s.HasBytes (22 + p.reserved.length + p.rest.bytes.length) p.vendor := by
  simp [PositionPayload.bytes]

theorem PositionPayload.wf_iff (p : PositionPayload) :
    p.wf = true ↔ p.gpsLength.toNat = 12 + p.reserved.length ∧ p.rest.wf = true := by
  simp [PositionPayload.wf]

@[simp] theorem LbsFields.length_bytes (l : LbsFields) : l.bytes.length = 8 := rfl

theorem LbsFields.standAt_of_hasBytes {l : LbsFields} {s : State} {a : Nat} (h : s.HasBytes a l.bytes) :
    l.StandAt s a := by
  simp only [LbsFields.bytes, State.hasBytes_append, State.hasBytes_cons, List.length_append, length_halfBytes,
    List.length_singleton, and_assoc, Nat.reduceAdd] at h
  obtain ⟨hmcc, hmnc, -, hlac, hcellHigh, hcellLow, -⟩ := h
  exact ⟨hmcc.half, hmnc, hlac.half, hcellHigh.half, hcellLow⟩

/-- The part of type 0x16: S, the LBS fields after it, and the status block S bytes on from S. -/
theorem PositionRest.status_standAt {n flags power gsm : Byte} {l : LbsFields} {reserved : List Byte} {s : State} {a : Nat}
    (hwf : (PositionRest.gpsLbsStatus n l reserved flags power gsm).wf = true)
    (h : s.HasBytes a (PositionRest.gpsLbsStatus n l reserved flags power gsm).bytes) :
    s.fbufByte a = n ∧ l.StandAt s (a + 1) ∧ s.fbufByte (a + n.toNat) = flags ∧ s.fbufByte (a + n.toNat + 1) = power
      ∧ s.fbufByte (a + n.toNat + 2) = gsm := by
  have hn : n.toNat = 9 + reserved.length := by simpa [PositionRest.wf] using hwf
  simp only [PositionRest.bytes, State.hasBytes_append, State.hasBytes_cons, List.length_append, LbsFields.length_bytes,
    List.length_singleton, and_assoc, Nat.reduceAdd, ← hn] at h
  obtain ⟨hs, -, hlbs, -, hflags, hpower, hgsm, -⟩ := h
  exact ⟨hs, LbsFields.standAt_of_hasBytes hlbs, hflags, hpower, hgsm⟩

/-- Settles O58: the payload's parts stand one after the other from address 4 on, and G - 12 is the number of reserved
bytes. -/
theorem positionFieldsStandAtTheirAddresses : Obligations.PositionFieldsStandAtTheirAddresses := by
  intro fr p s hp hwf h
  have hpayload := h.payload
  rw [hp, p.hasBytes_iff] at hpayload
  obtain ⟨htime, hgps, hlat, hlon, hspeed, hcourse, -, hrest, -⟩ := hpayload
  obtain ⟨hG, hrestWf⟩ := p.wf_iff.mp hwf
  rw [hG, Nat.add_sub_cancel_left]
  refine ⟨fun k hk => htime.fbufByte_eq_vector hk, ?_, hlat.word, hlon.word, hspeed, hcourse.half, fun l hl => ?_, ?_⟩
  · rw [hgps, append_nibble_toNat, hG]
  · rw [hl] at hrest
    exact LbsFields.standAt_of_hasBytes hrest
  · intro n l reserved flags power gsm hl
    rw [hl] at hrest hrestWf
    exact PositionRest.status_standAt hrestWf hrest

/-! ## Numbers read from FBUF, byte by byte -/

/-- Byte k of n bytes read big-endian. -/
theorem State.memRead_div_mod (s : State) {a n k : Nat} (hk : k < n) :
    s.memRead a n / 2 ^ (8 * (n - 1 - k)) % 2 ^ 8 = (s.fbufByte (a + k)).toNat := by
  induction n generalizing a k with
  | zero => omega
  | succ n ih =>
    rw [State.memRead_succ]
    cases k with
    | zero =>
      have hlow : s.memRead (a + 1) n < 2 ^ (8 * n) := Nat.pow_mul 2 8 n ▸ s.memRead_lt (a + 1) n
      rw [Nat.add_sub_cancel, Nat.sub_zero, Nat.mul_comm, Nat.mul_add_div (by positivity), Nat.div_eq_of_lt hlow]
      exact Nat.mod_eq_of_lt (s.fbufByte a).isLt
    | succ k =>
      have hsplit : 8 * n = 8 * (n - 1 - k) + 8 + 8 * k := by omega
      have hhigh : (s.fbufByte a).toNat * 2 ^ (8 * n)
          = 2 ^ (8 * (n - 1 - k)) * (2 ^ 8 * ((s.fbufByte a).toNat * 2 ^ (8 * k))) := by
        rw [hsplit, Nat.pow_add, Nat.pow_add]
        ring
      rw [hhigh, show n + 1 - 1 - (k + 1) = n - 1 - k by omega, Nat.mul_add_div (by positivity), Nat.mul_add_mod,
        ih (by omega), Nat.add_assoc, Nat.add_comm 1 k]

/-- XIMEI keeps the bits of its value below bit 60. -/
theorem packImei_div (v : Nat) {e : Nat} (he : e ≤ 60) : (packImei v).toNat / 2 ^ e = v / 2 ^ e % 2 ^ (60 - e) := by
  rw [packImei_toNat, ← Nat.add_sub_cancel' he, Nat.pow_add, Nat.mod_mul_right_div_self, Nat.add_sub_cancel_left]

/-! ## The login layout (rule R71) -/

theorem execAll_cons {i : Instr} {s t : State} (h : exec i s = .next t) (is : List Instr) :
    execAll (i :: is) s = execAll is t := by
  simp only [execAll, h]

theorem exec_seek_of_le {imm : Half} {s : State} (h : imm.toNat ≤ s.flen.toNat) :
    exec (.seek imm) s = .next (s.setCur imm.toNat) :=
  withinFrame_fits h _

theorem exec_ximei_of_le {rd : RegName} {s : State} (h : s.cur.toNat + 8 ≤ s.flen.toNat) :
    exec (.ximei rd) s = .next
      (((s.writeReg rd (packImei (s.memRead s.cur.toNat 8))).setNondecIf
        (hasNonDecimalDigit (packImei (s.memRead s.cur.toNat 8)))).setCur (s.cur.toNat + 8)) :=
  withinFrame_fits h _

/-- SEEK 4 and XIMEI in a frame of at least twelve bytes. -/
theorem execAll_seek_ximei {s : State} (h : 12 ≤ s.flen.toNat) (rd : RegName) :
    ∃ t, execAll [.seek 4, .ximei rd] s = .next t ∧ t.cur.toNat = 12 ∧ t.readReg rd = packImei (s.memRead 4 8) := by
  have hseek : exec (.seek 4) s = .next (s.setCur 4) := exec_seek_of_le (imm := 4) (Nat.le_trans (by decide) h)
  have hximei := exec_ximei_of_le (rd := rd) (s := s.setCur 4) h
  exact ⟨_, (execAll_cons hseek _).trans (execAll_cons hximei _), rfl, State.readReg_writeReg_same s rd _⟩

/-- A frame with a login payload has at least twelve bytes. -/
theorem HoldsBytes.twelve_le_flen {s : State} {fr : InboundFrame} {p : LoginPayload} (h : HoldsBytes s fr.bytes)
    (hp : fr.payload = p.bytes) : 12 ≤ s.flen.toNat := by
  obtain ⟨hflen, -⟩ := h
  simp [hflen, InboundFrame.bytes, hp, LoginPayload.bytes]

/-- Settles O59: XIMEI keeps the low 60 bits of the big-endian identifier, and each of its bytes has a place of its own
among them, but for the high nibble of the first. -/
theorem loginFrameGivesItsFifteenDigits : Obligations.LoginFrameGivesItsFifteenDigits := by
  intro fr p rd s hp h
  have hid := h.payload
  rw [hp, LoginPayload.bytes, State.hasBytes_append] at hid
  obtain ⟨hid, -⟩ := hid
  have hbyte (k : Nat) (hk : k < 8) : s.memRead 4 8 / 2 ^ (8 * (7 - k)) % 2 ^ 8 = p.identifier[k].toNat := by
    rw [← hid.fbufByte_eq_vector hk]
    exact s.memRead_div_mod hk
  obtain ⟨t, ht, hcur, hread⟩ := execAll_seek_ximei (h.twelve_le_flen hp) rd
  refine ⟨t, ht, hcur, ?_, fun j hj => ?_⟩
  · rw [hread, packImei_div _ (by norm_num), ← hbyte 0 (by norm_num)]
    exact (Nat.mod_mod_of_dvd _ (by norm_num)).symm
  · rw [hread, packImei_div _ (by omega), ← hbyte (j + 1) (by omega), show 8 * (7 - (j + 1)) = 48 - 8 * j by omega]
    exact Nat.mod_mod_of_dvd _ (Nat.pow_dvd_pow 2 (by omega))

end Sys2Proof.Machine
end

section
/-! PROOFS. The statements of 30_encoding.md on words and commands: decoding and encoding are inverse (rules R92 to R98), a row
and its words (rule R96), and the example words (rule R102). -/

namespace Sys2Proof

/-! ## The operand fields of an encoded word (rule R92) -/

section

variable (op : Opcode) (d a b : RegName) (imm : Half) (w p : BitVec 6)

@[simp] theorem rdField_formatR : rdField (formatR op d a b) = d :=
  Fin.ext (by rw [rdField_val]; simp [formatR_pieces])

@[simp] theorem rs1Field_formatR : rs1Field (formatR op d a b) = a :=
  Fin.ext (by rw [rs1Field_val]; simp [formatR_pieces])

@[simp] theorem rs2Field_formatR : rs2Field (formatR op d a b) = b :=
  Fin.ext (by rw [rs2Field_val]; simp [formatR_pieces])

@[simp] theorem rdField_formatI : rdField (formatI op d a imm) = d :=
  Fin.ext (by rw [rdField_val]; simp [formatI_pieces])

@[simp] theorem rs1Field_formatI : rs1Field (formatI op d a imm) = a :=
  Fin.ext (by rw [rs1Field_val]; simp [formatI_pieces])

@[simp] theorem imm16Field_formatI : imm16Field (formatI op d a imm) = imm :=
  BitVec.eq_of_toNat_eq (by rw [imm16Field_toNat]; simp [formatI_pieces])

@[simp] theorem imm8Field_formatI (v : Byte) : imm8Field (formatI op d a (v.setWidth 16)) = v :=
  BitVec.eq_of_toNat_eq (by rw [imm8Field_toNat]; simp [formatI_pieces]; omega)

@[simp] theorem rdField_formatX : rdField (formatX op d a b w p) = d :=
  Fin.ext (by rw [rdField_val]; simp [formatX_pieces])

@[simp] theorem rs1Field_formatX : rs1Field (formatX op d a b w p) = a :=
  Fin.ext (by rw [rs1Field_val]; simp [formatX_pieces])

@[simp] theorem rs2Field_formatX : rs2Field (formatX op d a b w p) = b :=
  Fin.ext (by rw [rs2Field_val]; simp [formatX_pieces])

@[simp] theorem posField_formatX : posField (formatX op d a b w p) = p :=
  BitVec.eq_of_toNat_eq (by rw [posField_toNat]; simp [formatX_pieces])

@[simp] theorem widthField_formatX : widthField (formatX op d a b w p) = w.toNat + 1 := by
  rw [widthField_eq]; simp [formatX_pieces]

end

/-! ## Encoding, then decoding -/

/-- The word of a command is one its own row selects, whatever the command. -/
theorem selects_encode (i : Instr) : i.opcode.selects (encode i) = true :=
  open Laws.EncodeSelects in
  match i with
  | .seek imm => seek imm
  | .skip imm => skip imm
  | .skipr rs1 imm => skipr rs1 imm
  | .tail imm => tail imm
  | .avail rd => avail rd
  | .rdu8 rd => rdu8 rd
  | .rdu16 rd => rdu16 rd
  | .rdu32 rd => rdu32 rd
  | .movi rd imm => movi rd imm
  | .xbf rd rs1 pos width => xbf rd rs1 pos width
  | .xsgn rd rs1 rs2 pos => xsgn rd rs1 rs2 pos
  | .xcell rd rs1 rs2 => xcell rd rs1 rs2
  | .xtime rd => xtime rd
  | .ximei rd => ximei rd
  | .crcinit => crcinit
  | .crci imm8 => crci imm8
  | .crcr rs1 => crcr rs1
  | .crcm rs1 count => crcm rs1 count
  | .crcrd rd => crcrd rd
  | .ack rs1 rs2 => ack rs1 rs2

theorem Instr.wellFormed_xbf_iff {rd rs1 : RegName} {pos : BitVec 6} {width : Nat} :
    (Instr.xbf rd rs1 pos width).WellFormed ↔ 1 ≤ width ∧ width ≤ 64 := by
  simp [Instr.WellFormed, Instr.wf]

/-- Every operand stands where its row reads it; a width from 1 to 64 fits its field less 1 (rule R94). -/
theorem build_encode {i : Instr} (h : i.WellFormed) : i.opcode.build (encode i) = i := by
  cases i with
  | xbf rd rs1 pos width =>
    rw [Instr.wellFormed_xbf_iff] at h
    have hw : (BitVec.ofNat 6 (width - 1)).toNat + 1 = width := by rw [BitVec.toNat_ofNat]; omega
    simp [Instr.opcode, Opcode.build, encode, -BitVec.toNat_ofNat, hw]
  | _ => simp [Instr.opcode, Opcode.build, encode]

/-- Settles O1: the word's row is the command's, and the row reads the operands back. -/
theorem decodeOfEncodeGivesTheCommand : Obligations.DecodeOfEncodeGivesTheCommand := fun i h =>
  (decode_of_selects (selects_encode i)).trans (congrArg Except.ok (build_encode h))

/-! ## Decoding, then encoding -/

section

variable {u w : Word}

theorem rdField_eq_iff : rdField u = rdField w ↔ piece u 21 3 = piece w 21 3 := by
  rw [Fin.ext_iff, rdField_val, rdField_val]

theorem rs1Field_eq_iff : rs1Field u = rs1Field w ↔ piece u 18 3 = piece w 18 3 := by
  rw [Fin.ext_iff, rs1Field_val, rs1Field_val]

theorem posField_eq_iff : posField u = posField w ↔ piece u 0 6 = piece w 0 6 := by
  rw [← BitVec.toNat_inj, posField_toNat, posField_toNat]

theorem rs2Field_eq_iff : rs2Field u = rs2Field w ↔ piece u 16 2 = piece w 16 2 ∧ piece u 15 1 = piece w 15 1 := by
  rw [Fin.ext_iff, rs2Field_val, rs2Field_val]
  unfold piece
  omega

theorem widthField_eq_iff : widthField u = widthField w ↔ piece u 8 4 = piece w 8 4 ∧ piece u 6 2 = piece w 6 2 := by
  rw [widthField_eq, widthField_eq]
  unfold piece
  omega

theorem imm8Field_eq_iff : imm8Field u = imm8Field w ↔ piece u 6 2 = piece w 6 2 ∧ piece u 0 6 = piece w 0 6 := by
  rw [← BitVec.toNat_inj, imm8Field_toNat, imm8Field_toNat]
  unfold piece
  omega

theorem imm16Field_eq_iff :
    imm16Field u = imm16Field w ↔ piece u 15 1 = piece w 15 1 ∧ piece u 12 3 = piece w 12 3 ∧ piece u 8 4 = piece w 8 4
      ∧ piece u 6 2 = piece w 6 2 ∧ piece u 0 6 = piece w 0 6 := by
  rw [← BitVec.toNat_inj, imm16Field_toNat, imm16Field_toNat]
  unfold piece
  omega

/-- A row's words differ in their operands only: each piece is the row's OP, must be 0, or is part of an operand. -/
theorem eq_of_build_eq {op : Opcode} (hu : op.selects u = true) (hw : op.selects w = true)
    (h : op.build u = op.build w) : u = w := by
  rw [Opcode.selects_iff] at hu hw
  rw [word_eq_iff_pieces]
  cases op <;>
    simp_all [Opcode.build, Opcode.mask, piece_literal, rdField_eq_iff, rs1Field_eq_iff, rs2Field_eq_iff, posField_eq_iff,
      widthField_eq_iff, imm8Field_eq_iff, imm16Field_eq_iff]

end

/-- Settles O2: the word and its command's encoding are two words of one row with the same operands. -/
theorem legalWordIsEncodingOfItsCommand : Obligations.LegalWordIsEncodingOfItsCommand := by
  intro w i hd
  obtain ⟨op, hs, rfl⟩ := selects_of_decode hd
  have hwf := op.wf_build w
  have hsel := selects_encode (op.build w)
  have hbuild := build_encode hwf
  rw [Opcode.opcode_build] at hsel hbuild
  exact ⟨hwf, eq_of_build_eq hsel hs hbuild⟩

/-! ## A row and its words (rule R96) -/

theorem Opcode.selects_iff_and_mask {op : Opcode} {w : Word} : op.selects w = true ↔ w &&& op.mask = op.pattern :=
  beq_iff_eq

theorem decode_opcode_iff (op : Opcode) (w : Word) : (∃ i, decode w = .ok i ∧ i.opcode = op) ↔ op.selects w = true := by
  constructor
  · rintro ⟨i, hd, rfl⟩
    obtain ⟨op, hs, rfl⟩ := selects_of_decode hd
    rwa [Opcode.opcode_build]
  · exact fun hs => ⟨op.build w, decode_of_selects hs, op.opcode_build w⟩

/-- No two rows select one word: each fixes OP. -/
theorem Opcode.eq_of_selects {a b : Opcode} {w : Word} (ha : a.selects w = true) (hb : b.selects w = true) : a = b := by
  obtain ⟨hopA, -⟩ := (a.selects_iff w).1 ha
  obtain ⟨hopB, -⟩ := (b.selects_iff w).1 hb
  exact Opcode.code_injective (BitVec.eq_of_toNat_eq (hopA.symm.trans hopB))

/-- Settles O3: the decoder answers a row's command when the row selects the word, and OP tells the rows apart. -/
theorem wordEncodesRowWhenMaskMatches : Obligations.WordEncodesRowWhenMaskMatches :=
  ⟨fun op w => (decode_opcode_iff op w).trans Opcode.selects_iff_and_mask,
    fun _ _ _ ha hb => Opcode.eq_of_selects (Opcode.selects_iff_and_mask.2 ha) (Opcode.selects_iff_and_mask.2 hb), rfl⟩

/-- Settles O4, word by word. -/
theorem exampleWordsDecodeToTheirCommands : Obligations.ExampleWordsDecodeToTheirCommands :=
  ⟨rfl, rfl, rfl, rfl, rfl, rfl, rfl, rfl⟩

end Sys2Proof
end

section
/-! PROOFS. The statements of 30_encoding.md on the assembler (rules R100, R101) and on illegal words (rule R97). -/

namespace Sys2Proof.Machine

/-! ## What the assembler yields -/

@[simp] theorem ifFits_eq_ok_iff {n greatest : Nat} {is js : List Instr} :
    ifFits n greatest is = .ok js ↔ n ≤ greatest ∧ is = js := by
  unfold ifFits
  split <;> simp [*]

/-- An accepted line is blank, or a mnemonic with its operands. -/
theorem assembleLine_cases {line : List Char} {is : List Instr} (h : assembleLine line = .ok is) :
    is = [] ∨ ∃ m ops, assembleCommand m ops = .ok is := by
  unfold assembleLine at h
  extract_lets code at h
  split at h
  · injection h with h
    exact .inl h.symm
  · split at h
    · cases h
    · split at h
      · cases h
      · exact .inr ⟨_, _, h⟩

/-- XBF is the one command with operands that no word holds: its own arm tests the width, and the pseudo-instructions take
widths 1, 4, 10 and 64 (rule R101). -/
theorem assembleCommand_wf (m : Mnemonic) (ops : List Operand) :
    ∀ is, assembleCommand m ops = .ok is → ∀ i ∈ is, i.WellFormed := by
  fun_cases assembleCommand m ops with
  | case10 d s p w hfits =>
    rintro _ ⟨⟩
    simpa [Instr.wellFormed_xbf_iff] using hfits.2
  | _ => simp [Instr.WellFormed, Instr.wf, Pseudo.expand]

/-- Settles O5: what the assembler yields is well-formed, so it is what its word decodes to. -/
theorem assembledLinesAreEncodable : Obligations.AssembledLinesAreEncodable := by
  intro line is h i hi
  apply decodeOfEncodeGivesTheCommand
  obtain rfl | ⟨m, ops, hm⟩ := assembleLine_cases h
  · cases hi
  · exact assembleCommand_wf m ops is hm i hi

/-! ## Illegal words -/

theorem decode_error_of_no_row {w : Word} (h : ∀ op : Opcode, w &&& op.mask ≠ op.pattern) : ∃ e, decode w = .error e := by
  cases hd : decode w with
  | error e => exact ⟨e, rfl⟩
  | ok i =>
    obtain ⟨op, hs, -⟩ := selects_of_decode hd
    exact absurd (Opcode.selects_iff_and_mask.1 hs) (h op)

theorem commandWrite_of_decode_error {w : Word} {e : DecodeError} {s : State} (hf : s.status.fault = false)
    (hd : decode w = .error e) : commandWrite w s = .next (s.recordFault .illegal w 0) := by
  simp [commandWrite, hf, hd]

/-- Settles O36: the word does not decode, so the CMD write records ILLEGAL. -/
theorem illegalWordRecordsIllegal : Obligations.IllegalWordRecordsIllegal := by
  intro s a w rest hq ha hr hf hrow
  obtain ⟨e, hd⟩ := decode_error_of_no_row hrow
  have hnone : (s.withQueue rest).status.fault = false := hf
  rw [step_write hq hr, hostWrite_cmd ha, commandWrite_of_decode_error hnone hd]
  exact ⟨_, rfl, State.recordFault_recorded hnone .illegal w 0 0 rfl⟩

end Sys2Proof.Machine
end

section
/-! PROOFS. The statements of 41_cursor.md: the cursor commands (rules R120 to R128) and the sequential reads (rules R130 to
R134). -/

namespace Sys2Proof.Machine

/-! ## The words of one-operand commands (30_encoding.md rule R92) -/

theorem formatI_imm_toNat (op : Opcode) (imm : Half) :
    (formatI op 0 0 imm).toNat = op.code.toNat * 2 ^ 24 + imm.toNat := by
  simp [formatI_toNat]

theorem formatR_rd_toNat (op : Opcode) (rd : RegName) :
    (formatR op rd 0 0).toNat = op.code.toNat * 2 ^ 24 + rd.val * 2 ^ 21 := by
  simp [formatR_toNat]

/-! ## The cursor inside the frame -/

section

variable {s : State} {n : Nat}

/-- A cursor value inside the frame is stored whole (10_state.md rule R23). -/
theorem State.setCur_toNat_of_le_flen (h : n ≤ s.flen.toNat) : (s.setCur n).cur.toNat = n :=
  s.setCur_toNat (h.trans_lt s.flen_lt)

@[simp] theorem State.setCur_self (s : State) : s.setCur s.cur.toNat = s := by
  simp [State.setCur]

theorem State.lt_remaining_iff : n < s.remaining ↔ s.cur.toNat + n < s.flen.toNat := by
  unfold State.remaining
  omega

theorem State.remaining_le_iff : s.remaining ≤ n ↔ s.flen.toNat ≤ s.cur.toNat + n :=
  Nat.sub_le_iff_le_add'

theorem State.remaining_lt (s : State) : s.remaining < 1024 :=
  (Nat.sub_le _ _).trans_lt s.flen_lt

end

/-! ## The shared operations of rules R122 and R130 -/

section

variable {i : Instr} {rd : RegName} {n : Nat} {v : Long} {s : State}

theorem advance_of_le (h : s.cur.toNat + n ≤ s.flen.toNat) :
    advance i n s = .next (s.setCur (s.cur.toNat + n)) :=
  withinFrame_fits h _

theorem readAtCursor_of_le (h : s.cur.toNat + n ≤ s.flen.toNat) :
    readAtCursor i rd n v s = .next ((s.writeReg rd v).setCur (s.cur.toNat + n)) :=
  withinFrame_fits h _

/-- A command that moves the cursor n bytes on does that alone, or raises BOUNDS. -/
theorem exec_advance_spec (hx : exec i s = advance i n s) :
    (s.cur.toNat + n ≤ s.flen.toNat →
        ∃ t, exec i s = .next t ∧ t.cur.toNat = s.cur.toNat + n ∧ OnlyCursor s t)
      ∧ (s.flen.toNat < s.cur.toNat + n → RaisesIfNonePending i 1 (s.cur.toNat + n) s) :=
  ⟨fun h => ⟨_, hx.trans (advance_of_le h), State.setCur_toNat_of_le_flen h, onlyCursor_setCur s _⟩,
    raisesBounds_of_past hx⟩

/-- A command that reads n bytes at the cursor writes the value and moves the cursor past them, or raises BOUNDS. -/
theorem exec_readAtCursor_spec {x : Nat} (hx : exec i s = readAtCursor i rd n v s) (hv : v.toNat = x) :
    (s.cur.toNat + n ≤ s.flen.toNat →
        ∃ t, exec i s = .next t ∧ (t.readReg rd).toNat = x ∧ t.cur.toNat = s.cur.toNat + n
          ∧ OnlyFieldRegAndCursor rd s t)
      ∧ (s.flen.toNat < s.cur.toNat + n → RaisesIfNonePending i 1 (s.cur.toNat + n) s) := by
  refine ⟨fun h => ⟨_, hx.trans (readAtCursor_of_le h), ?_, State.setCur_toNat_of_le_flen h,
    onlyFieldRegAndCursor_read s rd v _⟩, raisesBounds_of_past hx⟩
  rw [State.readReg_setCur, State.readReg_writeReg_same, hv]

end

/-! ## SKIPR (rule R124) -/

theorem exec_skipr_of_eq_add {r : RegName} {imm : Half} {s : State} {n : Nat}
    (h : (s.readReg r).toNat = imm.toNat + n) : exec (.skipr r imm) s = advance (.skipr r imm) n s := by
  rw [exec_skipr_of_le (by omega), h, Nat.add_sub_cancel_left]

/-- Settles O8: a count below 0 is the NEGSKIP record, any other one goes on as SKIP does. -/
theorem skiprSkipsTheDifferenceOrRaises : Obligations.SkiprSkipsTheDifferenceOrRaises := by
  intro r imm s
  refine ⟨?_, fun hneg hf => ?_, fun n hn => exec_advance_spec (exec_skipr_of_eq_add hn)⟩
  · simp [encode, formatI_toNat, Opcode.code]
  · exact ⟨_, exec_skipr_of_lt hneg, State.recordFault_recorded hf .negskip _ _ _ (ofInt_info _)⟩

/-! ## SEEK, SKIP, TAIL and AVAIL (rules R120, R122, R126, R128) -/

/-- Settles O6: SEEK is the range check of its operand. -/
theorem seekSetsCursorOrRaisesBounds : Obligations.SeekSetsCursorOrRaisesBounds := fun imm s =>
  ⟨formatI_imm_toNat .seek imm,
    fun h => ⟨_, exec_seek_of_le h, State.setCur_toNat_of_le_flen h, onlyCursor_setCur s _⟩,
    raisesBounds_of_past rfl⟩

/-- Settles O7: SKIP moves the cursor on by its operand; by 0 it is set to where it stands. -/
theorem skipAdvancesCursorOrRaisesBounds : Obligations.SkipAdvancesCursorOrRaisesBounds := by
  intro imm s
  obtain ⟨hfits, hpast⟩ := exec_advance_spec (i := .skip imm) (n := imm.toNat) (s := s) rfl
  refine ⟨formatI_imm_toNat .skip imm, hfits, hpast, fun h => ?_⟩
  have hskip : exec (.skip 0) s = .next (s.setCur s.cur.toNat) := advance_of_le (n := 0) h
  rw [hskip, State.setCur_self]

/-- Settles O9: TAIL moves the cursor when more bytes remain than its operand, and does nothing otherwise. -/
theorem tailLeavesTheLastBytes : Obligations.TailLeavesTheLastBytes := by
  intro imm s
  refine ⟨formatI_imm_toNat .tail imm, fun h => ?_, fun h => ?_⟩
  · have hcur := s.setCur_toNat_of_le_flen (Nat.sub_le s.flen.toNat imm.toNat)
    exact ⟨_, exec_tail_of_lt (State.lt_remaining_iff.2 h), by omega, by omega, onlyCursor_setCur s _⟩
  · exact exec_tail_of_le (State.remaining_le_iff.2 h)

/-- Settles O10: the register takes the remaining count, which fits it. -/
theorem availReadsTheBytesLeft : Obligations.AvailReadsTheBytesLeft := by
  intro rd s
  refine ⟨formatR_rd_toNat .avail rd, _, rfl, onlyFieldReg_writeReg s rd _, fun h => ?_⟩
  have hlt := s.remaining_lt
  rw [State.readReg_writeReg_same, BitVec.toNat_ofNat, Nat.mod_eq_of_lt (by omega)]
  exact Nat.sub_add_cancel h

/-! ## RDU8, RDU16 and RDU32 (rules R130, R132, R134) -/

/-- The value of up to eight bytes fits a field register. -/
theorem State.ofNat_memRead_toNat (s : State) (a : Nat) {n : Nat} (hn : n ≤ 8) :
    (BitVec.ofNat 64 (s.memRead a n)).toNat = s.memRead a n := by
  rw [BitVec.toNat_ofNat]
  exact Nat.mod_eq_of_lt ((s.memRead_lt a n).trans_le (Nat.pow_le_pow_right (by norm_num) hn))

/-- Settles O11: the byte is zero-extended, which keeps its number. -/
theorem rdu8ReadsOneByteAtTheCursor : Obligations.Rdu8ReadsOneByteAtTheCursor := fun rd _ =>
  ⟨formatR_rd_toNat .rdu8 rd, exec_readAtCursor_spec rfl (BitVec.toNat_setWidth_of_le (by norm_num))⟩

/-- Settles O12: the value is MemRead of two bytes. -/
theorem rdu16ReadsTwoBytesBigEndian : Obligations.Rdu16ReadsTwoBytesBigEndian := by
  refine fun rd s => ⟨formatR_rd_toNat .rdu16 rd, exec_readAtCursor_spec rfl ?_⟩
  exact (s.ofNat_memRead_toNat _ (by norm_num)).trans (s.memRead_two _)

/-- Settles O13: the value is MemRead of four bytes. -/
theorem rdu32ReadsFourBytesBigEndian : Obligations.Rdu32ReadsFourBytesBigEndian := by
  refine fun rd s => ⟨formatR_rd_toNat .rdu32 rd, exec_readAtCursor_spec rfl ?_⟩
  rw [s.ofNat_memRead_toNat _ (by norm_num), State.memRead_four]
  ring

/-! ## TAIL 6 and RDU16 in a complete frame (rule R127; 20_memory.md rule R69) -/

@[simp] theorem State.memRead_setCur (s : State) (m a n : Nat) : (s.setCur m).memRead a n = s.memRead a n :=
  State.memRead_congr fun _ _ _ => rfl

/-- The index of a loaded frame stands six bytes before its end. -/
theorem HoldsBytes.index {s : State} {fr : InboundFrame} (h : HoldsBytes s fr.bytes) :
    s.memRead (s.flen.toNat - 6) 2 = fr.index.toNat := by
  have hsplit : fr.bytes = ([0x78, 0x78, BitVec.ofNat 8 fr.length, fr.type] ++ fr.payload)
      ++ (halfBytes fr.index ++ (halfBytes fr.checksum ++ [0x0D, 0x0A])) := rfl
  have hbytes := h.hasBytes
  rw [hsplit, State.hasBytes_append] at hbytes
  obtain ⟨-, htail⟩ := hbytes
  obtain ⟨hindex, -⟩ := (s.hasBytes_append _ _ _).1 htail
  obtain ⟨hflen, -⟩ := h
  rw [← hindex.half, hflen, hsplit]
  simp

/-- With at least imm bytes left TAIL puts the cursor at FLEN - imm, also where it stands there already. -/
theorem exec_tail_of_add_le {imm : Half} {s : State} (h : s.cur.toNat + imm.toNat ≤ s.flen.toNat) :
    exec (.tail imm) s = .next (s.setCur (s.flen.toNat - imm.toNat)) := by
  rcases h.lt_or_eq with hmove | hstay
  · exact exec_tail_of_lt (State.lt_remaining_iff.2 hmove)
  · rw [← hstay, Nat.add_sub_cancel, State.setCur_self]
    exact exec_tail_of_le (State.remaining_le_iff.2 hstay.ge)

theorem exec_rdu16_of_le {rd : RegName} {s : State} (h : s.cur.toNat + 2 ≤ s.flen.toNat) :
    exec (.rdu16 rd) s = .next
      ((s.writeReg rd (BitVec.ofNat 64 (s.memRead s.cur.toNat 2))).setCur (s.cur.toNat + 2)) :=
  readAtCursor_of_le h

/-- Settles O57: after TAIL 6 the cursor is at the index, and RDU16 reads it from the same bytes. -/
theorem tailSixThenRdu16ReadsTheIndex : Obligations.TailSixThenRdu16ReadsTheIndex := by
  intro fr rd s _ hframe hleft
  have htail : exec (.tail 6) s = .next (s.setCur (s.flen.toNat - 6)) := exec_tail_of_add_le (imm := 6) hleft
  have hcur := s.setCur_toNat_of_le_flen (Nat.sub_le s.flen.toNat 6)
  have hread := exec_rdu16_of_le (rd := rd) (s := s.setCur (s.flen.toNat - 6)) (by rw [hcur, State.setCur_flen]; omega)
  rw [hcur, State.memRead_setCur] at hread
  refine ⟨_, (execAll_cons htail _).trans (execAll_cons hread _), ?_, ?_, onlyFieldRegAndCursor_read s rd _ _⟩
  · rw [State.readReg_setCur, State.readReg_writeReg_same, s.ofNat_memRead_toNat _ (by norm_num), hframe.index]
  · have hlt := s.flen_lt
    rw [State.setCur_toNat _ (by omega)]
    omega

end Sys2Proof.Machine
end

section
/-! PROOFS. The statements of 42_extract.md: MOVI, XBF, XSGN, XCELL (rules R150 to R159), XTIME (rule R163) and XIMEI
(rule R167). -/

namespace Sys2Proof

/-- Bits that a row's mask holds and its match leaves 0 are must-be-0 bits of its OP value (30_encoding.md
rules R96, R97). -/
theorem Opcode.mustBeZero_of_mask {op : Opcode} {lo len : Nat} (hmask : piece op.mask lo len = 2 ^ len - 1)
    (hpattern : piece op.pattern lo len = 0) : Machine.MustBeZero op.code.toNat lo len := by
  intro w hop hne i hdec
  have hw : w &&& op.mask = op.pattern := Opcode.selects_iff_and_mask.1 (selects_of_opcode hop hdec)
  refine hne ?_
  calc piece w lo len = piece (w &&& op.mask) lo len := by rw [piece_and, hmask, piece_and_ones]
    _ = 0 := by rw [hw, hpattern]

namespace Machine

/-! ## MOVI and XBF (rules R150, R152) -/

/-- Settles O15: the constant is zero-extended, which keeps its number. -/
theorem moviLoadsTheConstant : Obligations.MoviLoadsTheConstant := by
  intro rd imm s
  refine ⟨?_, _, rfl, ?_, onlyFieldReg_writeReg s rd _⟩
  · simp [encode, formatI_toNat, Opcode.code]
  · rw [State.readReg_writeReg_same]
    exact BitVec.toNat_setWidth_of_le (by norm_num)

/-- The field of rule R152 bit by bit. -/
theorem bitField_getLsbD (v : Long) (pos : BitVec 6) {width : Nat} (hw : width ≤ 64) (j : Nat) :
    (bitField v pos width).getLsbD j = (decide (j < width) && v.getLsbD (pos.toNat + j)) := by
  rw [bitField, BitVec.getLsbD_and, BitVec.getLsbD_ushiftRight, BitVec.getLsbD_ofNat, Nat.testBit_two_pow_sub_one,
    Bool.and_comm]
  have hsize : j < width → j < 64 := fun h => h.trans_le hw
  congr 1
  simpa using hsize

/-- The word of XBF holds the width less 1 whole (rule R152). -/
theorem encode_xbf_toNat (rd rs1 : RegName) (pos : BitVec 6) {width : Nat} (hw : width ≤ 64) :
    (encode (.xbf rd rs1 pos width)).toNat
      = 0x21000000 + rd.val * 2 ^ 21 + rs1.val * 2 ^ 18 + (width - 1) * 2 ^ 6 + pos.toNat := by
  have hfield : (BitVec.ofNat 6 (width - 1)).toNat = width - 1 := Nat.mod_eq_of_lt (by omega)
  rw [encode, formatX_toNat, hfield]
  simp [Opcode.code]

/-- Settles O16: XBF writes the field of the old F[RS1]. -/
theorem xbfExtractsTheBitField : Obligations.XbfExtractsTheBitField := by
  intro rd rs1 pos width s _ hw
  refine ⟨encode_xbf_toNat rd rs1 pos hw, Opcode.mustBeZero_of_mask (op := .xbf) rfl rfl, _, rfl,
    onlyFieldReg_writeReg s rd _, fun j => ?_⟩
  rw [State.readReg_writeReg_same, bitField_getLsbD _ _ hw]

/-! ## XSGN (rules R155, R158) -/

/-- XSGN writes F[RD] alone: the magnitude under the sign bit, as a signed integer. -/
theorem exec_xsgn_spec (rd rs1 rs2 : RegName) (pos : BitVec 6) (s : State) :
    ∃ t, exec (.xsgn rd rs1 rs2 pos) s = .next t ∧ OnlyFieldReg rd s t
      ∧ (t.readReg rd).toInt =
          if (s.readReg rs2).getLsbD pos.toNat then (((s.readReg rs1).toNat % 2 ^ 32 : Nat) : Int)
          else -(((s.readReg rs1).toNat % 2 ^ 32 : Nat) : Int) := by
  refine ⟨_, rfl, onlyFieldReg_writeReg s rd _, ?_⟩
  rw [State.readReg_writeReg_same, applySign_toInt, bitAt]

/-- Settles O17: the word is one of format X without a width, the meaning `exec_xsgn_spec`. -/
theorem xsgnAppliesTheHemisphereSign : Obligations.XsgnAppliesTheHemisphereSign := by
  intro rd rs1 rs2 pos s
  refine ⟨?_, Opcode.mustBeZero_of_mask (op := .xsgn) rfl rfl, exec_xsgn_spec rd rs1 rs2 pos s⟩
  simp [encode, formatX_toNat, Opcode.code]

/-- Settles O18: LAT and LON are XSGN with bits 10 and 11 of the same flags; the four quadrants are the values of those
bits. -/
theorem hemisphereSignLawOverFourQuadrants : Obligations.HemisphereSignLawOverFourQuadrants := by
  intro fm ff d e s m hm
  obtain ⟨t, ht, -, hlat⟩ := exec_xsgn_spec d fm ff 10 s
  obtain ⟨u, hu, -, hlon⟩ := exec_xsgn_spec e fm ff 11 s
  refine ⟨t, u, execAll_cons ht [], execAll_cons hu [], ?_⟩
  simp only [hlat, hlon, ← hm, BitVec.reduceToNat]
  cases (s.readReg ff).getLsbD 11 <;> cases (s.readReg ff).getLsbD 10 <;> rfl

/-! ## XCELL (rule R159) -/

/-- The two parts of a corrected cell id do not overlap. -/
theorem correctedCell_toNat (h : Half) (l : Byte) : (correctedCell h l).toNat = h.toNat * 2 ^ 8 + l.toNat := by
  have hh := h.isLt
  have hhigh : (h.setWidth 64 <<< 8 : Long).toNat = h.toNat * 2 ^ 8 := by
    rw [BitVec.toNat_shiftLeft, BitVec.toNat_setWidth_of_le (by norm_num), Nat.shiftLeft_eq]
    omega
  rw [correctedCell, BitVec.toNat_or, hhigh, BitVec.toNat_setWidth_of_le (by norm_num), or_eq_add _ _ 8 l.isLt]

/-- Settles O19: the value is `cellId` in either mode, on parts that are remainders of the two registers. -/
theorem xcellCombinesTheTwoParts : Obligations.XcellCombinesTheTwoParts := by
  intro rd rs1 rs2 s
  refine ⟨?_, _, rfl, onlyFieldReg_writeReg s rd _, fun hmode => ?_, fun hmode => ?_⟩
  · simp [encode, formatR_toNat, Opcode.code]
  · rw [State.readReg_writeReg_same, hmode, cellId, if_pos rfl, correctedCell_toNat, lowHalf_eq, lowByte_eq,
      BitVec.toNat_ofNat, BitVec.toNat_ofNat]
  · rw [State.readReg_writeReg_same, hmode, cellId, if_neg Bool.false_ne_true, lowHalf_eq, lowByte_eq]

/-! ## XTIME (rule R163) -/

section

variable (s : State) (a : Nat)

theorem State.memRead_six :
    s.memRead a 6 = (s.fbufByte a).toNat * 2 ^ 40 + (s.fbufByte (a + 1)).toNat * 2 ^ 32
      + (s.fbufByte (a + 2)).toNat * 2 ^ 24 + (s.fbufByte (a + 3)).toNat * 2 ^ 16 + (s.fbufByte (a + 4)).toNat * 2 ^ 8
      + (s.fbufByte (a + 5)).toNat := by
  rw [State.memRead_succ, State.memRead_succ, State.memRead_four]
  ring

/-- The packed date/time is the big-endian number of its six bytes with 2000 added to the year. -/
theorem State.timeAt_toNat : (s.timeAt a).toNat = s.memRead a 6 + 2000 * 2 ^ 40 := by
  rw [State.timeAt, packTime_toNat, State.memRead_six]
  ring

theorem State.timeAt_year : (s.timeAt a).toNat / 2 ^ 40 = 2000 + (s.fbufByte a).toNat := by
  have hlt : s.memRead a 6 < 256 ^ 6 := s.memRead_lt a 6
  have hbyte : s.memRead a 6 / 2 ^ 40 % 2 ^ 8 = (s.fbufByte a).toNat := s.memRead_div_mod (k := 0) (by norm_num)
  rw [State.timeAt_toNat]
  omega

/-- 2000 in the year's place leaves the five bytes below as they are. -/
theorem State.timeAt_byte {k : Nat} (hlo : 1 ≤ k) (hhi : k ≤ 5) :
    (s.timeAt a).toNat / 2 ^ (8 * (5 - k)) % 2 ^ 8 = (s.fbufByte (a + k)).toNat := by
  have hplace : 2000 * 2 ^ 40 = 2000 * 2 ^ (8 * (k - 1)) * 2 ^ 8 * 2 ^ (8 * (5 - k)) := by
    rw [Nat.mul_assoc, Nat.mul_assoc, ← Nat.pow_add, ← Nat.pow_add]
    congr 2
    omega
  rw [State.timeAt_toNat, hplace, Nat.add_mul_div_right _ _ (by positivity), Nat.add_mul_mod_self_right]
  exact s.memRead_div_mod (n := 6) (by omega)

end

/-- Settles O20: XTIME is a read of six bytes at the cursor. -/
theorem xtimeUnpacksTheSixTimeBytes : Obligations.XtimeUnpacksTheSixTimeBytes := by
  intro rd s
  obtain ⟨hfits, hpast⟩ := exec_readAtCursor_spec (i := .xtime rd) (rd := rd) (n := 6) (s := s) rfl rfl
  refine ⟨formatR_rd_toNat .xtime rd, fun h => ?_, hpast⟩
  obtain ⟨t, ht, hval, hcur, hframe⟩ := hfits h
  refine ⟨t, ht, hcur, hframe, ?_⟩
  rw [hval]
  exact ⟨s.timeAt_year _, fun _ => s.timeAt_byte _⟩

/-! ## XIMEI (rules R167, R168) -/

section

variable (s : State) (a : Nat)

/-- The fifteen digits lie in the eight bytes at four-bit distances: an even one is the low half of its byte, an odd one
the high half. -/
theorem identifierNibble_eq {k : Nat} (hk : k < 15) :
    identifierNibble s a k = s.memRead a 8 / 2 ^ (4 * (14 - k)) % 16 := by
  unfold identifierNibble
  rcases Nat.even_or_odd' k with ⟨b, rfl | rfl⟩
  · have hbyte := s.memRead_div_mod (a := a) (n := 8) (k := b) (by omega)
    rw [show 8 * (8 - 1 - b) = 4 * (14 - 2 * b) by omega] at hbyte
    have hlow : (s.fbufByte (a + b)).toNat % 16 = s.memRead a 8 / 2 ^ (4 * (14 - 2 * b)) % 16 := by omega
    cases b with
    | zero => exact hlow
    | succ b => simpa using hlow
  · have hbyte := s.memRead_div_mod (a := a) (n := 8) (k := b + 1) (by omega)
    have hplace : 4 * (14 - (2 * b + 1)) = 8 * (8 - 1 - (b + 1)) + 4 := by omega
    rw [if_neg (by omega), if_pos (by omega), show (2 * b + 1 + 1) / 2 = b + 1 by omega, hplace, Nat.pow_add,
      ← Nat.div_div_eq_div_mul]
    omega

/-- Digit k of the packed identifier is nibble k. -/
theorem packImei_memRead_digit {k : Nat} (hk : k < 15) :
    (packImei (s.memRead a 8)).toNat / 2 ^ (4 * (14 - k)) % 16 = identifierNibble s a k := by
  rw [packImei_div _ (by omega), identifierNibble_eq s a hk]
  exact Nat.mod_mod_of_dvd _ (Nat.pow_dvd_pow 2 (m := 4) (by omega))

theorem hasNonDecimalDigit_packImei_iff :
    hasNonDecimalDigit (packImei (s.memRead a 8)) = true ↔ ∃ k, k < 15 ∧ 9 < identifierNibble s a k := by
  simp only [hasNonDecimalDigit, List.any_eq_true, List.mem_range, decide_eq_true_eq]
  refine exists_congr fun k => and_congr_right fun hk => ?_
  rw [imeiDigit_toNat _ _ hk, packImei_memRead_digit s a hk]

end

/-- XIMEI leaves all but F[RD], CUR and NONDEC as they are. -/
theorem ximei_frame (s : State) (rd : RegName) (v : Long) (c : Bool) (n : Nat) {t : State}
    (ht : t = ((s.writeReg rd v).setNondecIf c).setCur n) :
    SameFieldRegsBut rd s t ∧ t.crc = s.crc ∧ t.status.ackv = s.status.ackv ∧ SameAbuf s t
      ∧ SameOutsideCommands s t := by
  subst ht
  refine ⟨s.sameFieldRegsBut_writeReg rd v, ?_⟩
  simp [SameAbuf, SameOutsideCommands, SameFbuf, SameHostSide]

/-- Settles O21: the value is the low 60 bits of the eight bytes, so its digits are their nibbles but the first. -/
theorem ximeiUnpacksFifteenDigits : Obligations.XimeiUnpacksFifteenDigits := by
  intro rd s
  refine ⟨formatR_rd_toNat .ximei rd, fun h => ⟨_, exec_ximei_of_le h, State.setCur_toNat_of_le_flen h, ?_,
    fun k hk => ?_, ?_, ximei_frame s rd _ _ _ rfl⟩, raisesBounds_of_past rfl⟩
  · rw [State.readReg_setCur, State.readReg_setNondecIf, State.readReg_writeReg_same, packImei_toNat]
    exact Nat.mod_lt _ (by norm_num)
  · rw [State.readReg_setCur, State.readReg_setNondecIf, State.readReg_writeReg_same, packImei_memRead_digit s _ hk]
  · rw [State.setCur_status, State.setNondecIf_status, State.writeReg_status, ← hasNonDecimalDigit_packImei_iff]
    exact Bool.or_eq_true_iff

end Machine

end Sys2Proof
end

section
/-! PROOFS. The statements of 43_crc.md: the algorithm (rules R180 to R183), the accumulator commands (rules R184 to R188)
and the acknowledgment (rule R190). -/

namespace Sys2Proof.Machine

/-! ## Reflection (rule R180) -/

section

variable {n : Nat} (v u : BitVec n)

theorem reflect_getLsbD (i : Nat) : (reflect v).getLsbD i = (decide (i < n) && v.getLsbD (n - 1 - i)) :=
  BitVec.getLsbD_reverse

@[simp] theorem reflect_reflect : reflect (reflect v) = v := BitVec.reverse_reverse_eq

theorem reflect_xor : reflect (v ^^^ u) = reflect v ^^^ reflect u := by
  refine BitVec.eq_of_getLsbD_eq fun i hi => ?_
  simp only [reflect_getLsbD, BitVec.getLsbD_xor, hi, decide_true, Bool.true_and]

/-- Reflection turns a shift left into a shift right. -/
theorem reflect_shiftLeft (k : Nat) : reflect (v <<< k) = reflect v >>> k := by
  refine BitVec.eq_of_getLsbD_eq fun i hi => ?_
  have hin : n - 1 - i < n := by omega
  have hlow : n - 1 - i < k ↔ ¬ k + i < n := by omega
  simp only [reflect_getLsbD, BitVec.getLsbD_shiftLeft, BitVec.getLsbD_ushiftRight, hi, hin, hlow, decide_true,
    decide_not, Bool.not_not, Bool.true_and]
  rw [show n - 1 - i - k = n - 1 - (k + i) by omega]

variable {v u}

theorem eq_reflect_of_getLsbD (h : ∀ i, i < n → u.getLsbD i = v.getLsbD (n - 1 - i)) :
    u = reflect v := by
  refine BitVec.eq_of_getLsbD_eq fun i hi => ?_
  rw [h i hi, reflect_getLsbD, decide_eq_true hi, Bool.true_and]

end

/-- A byte in the upper half of the state, reflected, is the reflected byte in the lower half. -/
theorem reflect_byte_shiftLeft (b : Byte) : reflect (b.setWidth 16 <<< 8) = (reflect b).setWidth 16 := by
  refine BitVec.eq_of_getLsbD_eq fun i hi => ?_
  have hhigh : 8 + i < 16 ↔ i < 8 := by omega
  have hin : 8 - 1 - i < 16 := by omega
  rw [reflect_shiftLeft]
  simp only [BitVec.getLsbD_ushiftRight, reflect_getLsbD, BitVec.getLsbD_setWidth, hi, hhigh, decide_true, Bool.true_and]
  rw [show 16 - 1 - (8 + i) = 8 - 1 - i by omega, decide_eq_true hin, Bool.true_and]

/-! ## CrcUpdate as a recurrence (rule R180) -/

/-- One step as an exclusive-or: the shifted state, less the polynomial when bit 15 leaves the state. -/
theorem crcShift_eq (c : Half) : crcShift c = c <<< 1 ^^^ (if c.getLsbD 15 then Config.crcPoly else 0) := by
  unfold crcShift
  split
  · rfl
  · exact BitVec.xor_zero.symm

theorem crcShifts_succ (k : Nat) (c : Half) : crcShifts (k + 1) c = crcShift (crcShifts k c) := by
  induction k generalizing c with
  | zero => rfl
  | succ k ih => exact ih (crcShift c)

/-- One step on numbers, as rule R180 writes it. -/
theorem crcShift_toNat (c : Half) :
    (crcShift c).toNat =
      if c.toNat / 2 ^ 15 % 2 = 1 then (c.toNat * 2 ^^^ 0x1021) % 2 ^ 16 else c.toNat * 2 % 2 ^ 16 := by
  have htop : c.getLsbD 15 = decide (c.toNat / 2 ^ 15 % 2 = 1) := by
    rw [← BitVec.testBit_toNat, Nat.testBit_eq_decide_div_mod_eq]
  have hdouble : (c <<< 1).toNat = c.toNat * 2 % 2 ^ 16 := by
    rw [BitVec.toNat_shiftLeft, Nat.shiftLeft_eq]
  have hpoly : Config.crcPoly.toNat = 0x1021 % 2 ^ 16 := rfl
  simp only [crcShift, htop, decide_eq_true_eq, apply_ite BitVec.toNat, BitVec.toNat_xor, hdouble, hpoly,
    Nat.xor_mod_two_pow]

/-- Numbers that start at c and follow the recurrence are the values the state takes. -/
theorem crcShifts_toNat_of_recurrence {c : Half} {d : Nat → Nat} {n : Nat} (hzero : d 0 = c.toNat)
    (hsucc : ∀ k, k < n → d (k + 1) =
      if d k / 2 ^ 15 % 2 = 1 then (d k * 2 ^^^ 0x1021) % 2 ^ 16 else d k * 2 % 2 ^ 16) :
    (crcShifts n c).toNat = d n := by
  induction n with
  | zero => exact hzero.symm
  | succ n ih =>
    rw [crcShifts_succ, crcShift_toNat, ih fun k hk => hsucc k (by omega), hsucc n (by omega)]

theorem xor_byte_shiftLeft_toNat (c : Half) (b : Byte) : (c ^^^ b.setWidth 16 <<< 8).toNat = c.toNat ^^^ b.toNat * 2 ^ 8 := by
  have hb := b.isLt
  rw [BitVec.toNat_xor, BitVec.toNat_shiftLeft, BitVec.toNat_setWidth_of_le (by norm_num), Nat.shiftLeft_eq,
    Nat.mod_eq_of_lt (by omega)]

theorem crcUpdate_of_refin {cfg : CrcCfg} (h : cfg.refin = true) (c : Half) (b : Byte) :
    crcUpdate cfg c b = crcShifts 8 (c ^^^ (reflect b).setWidth 16 <<< 8) := by
  simp [crcUpdate, h]

theorem crcUpdate_of_not_refin {cfg : CrcCfg} (h : cfg.refin = false) (c : Half) (b : Byte) :
    crcUpdate cfg c b = crcShifts 8 (c ^^^ b.setWidth 16 <<< 8) := by
  simp [crcUpdate, h]

/-- With or without refin, CrcUpdate is the eight steps on the byte that rule R180 calls b'. -/
theorem crcUpdate_eq_of_bits {cfg : CrcCfg} {b b' : Byte} (c : Half)
    (h : ∀ i, i < 8 → b'.getLsbD i = b.getLsbD (if cfg.refin then 7 - i else i)) :
    crcUpdate cfg c b = crcShifts 8 (c ^^^ b'.setWidth 16 <<< 8) := by
  cases hin : cfg.refin
  · have hb : b' = b := BitVec.eq_of_getLsbD_eq (by simpa [hin] using h)
    rw [crcUpdate_of_not_refin hin, hb]
  · have hb : b' = reflect b := eq_reflect_of_getLsbD (by simpa [hin] using h)
    rw [crcUpdate_of_refin hin, hb]

/-! ## CrcUpdate is linear (95_test_vectors.md V88) -/

theorem crcShift_xor (c d : Half) : crcShift (c ^^^ d) = crcShift c ^^^ crcShift d := by
  have hpoly (x y : Bool) : (if x ^^ y then Config.crcPoly else 0)
      = (if x then Config.crcPoly else 0) ^^^ (if y then Config.crcPoly else 0) := by
    cases x <;> cases y <;> rfl
  rw [crcShift_eq, BitVec.getLsbD_xor, hpoly, BitVec.shiftLeft_xor_distrib, crcShift_eq, crcShift_eq]
  ac_rfl

theorem crcShifts_xor (k : Nat) (c d : Half) : crcShifts k (c ^^^ d) = crcShifts k c ^^^ crcShifts k d := by
  induction k generalizing c d with
  | zero => rfl
  | succ k ih => rw [crcShifts, crcShift_xor, ih, crcShifts, crcShifts]

/-- The state and the byte as it is shifted in enter the eight steps linearly. -/
theorem crcShifts_xor_byte (c d : Half) (a b : Byte) :
    crcShifts 8 (c ^^^ d ^^^ (a ^^^ b).setWidth 16 <<< 8)
      = crcShifts 8 (c ^^^ a.setWidth 16 <<< 8) ^^^ crcShifts 8 (d ^^^ b.setWidth 16 <<< 8) := by
  rw [← crcShifts_xor, BitVec.setWidth_xor, BitVec.shiftLeft_xor_distrib]
  ac_rfl

theorem crcUpdate_xor (cfg : CrcCfg) (c d : Half) (a b : Byte) :
    crcUpdate cfg (c ^^^ d) (a ^^^ b) = crcUpdate cfg c a ^^^ crcUpdate cfg d b := by
  cases hin : cfg.refin
  · simp only [crcUpdate_of_not_refin hin, crcShifts_xor_byte]
  · simp only [crcUpdate_of_refin hin, reflect_xor, crcShifts_xor_byte]

/-- Settles O29: CrcUpdate is eight steps of the recurrence from the state with the byte shifted in, and each of them is
linear. CrcUpdate(0, 0) is 0 as its own exclusive-or with itself. -/
theorem crcUpdateIsLinearOverXor : Obligations.CrcUpdateIsLinearOverXor := by
  intro cfg
  refine ⟨fun c b b' d hbits hzero hsucc => ?_, fun c b b' hbits => ?_, crcUpdate_xor cfg, ?_⟩
  · rw [crcUpdate_eq_of_bits c hbits]
    exact crcShifts_toNat_of_recurrence (hzero.trans (xor_byte_shiftLeft_toNat c b').symm) hsucc
  · have hb : b = reflect b' := eq_reflect_of_getLsbD fun i hi => (hbits i hi).symm
    rw [crcUpdate_of_refin rfl, crcUpdate_of_not_refin rfl, hb, reflect_reflect]
  · simpa using crcUpdate_xor cfg 0 0 0 0

/-! ## The reflected form (rule R183) -/

/-- Reflection turns a step of rule R180 into a step of the reflected form. -/
theorem reflectedShift_reflect (c : Half) : reflectedShift (reflect c) = reflect (crcShift c) := by
  have hlow : (reflect c).getLsbD 0 = c.getLsbD 15 := reflect_getLsbD c 0
  have hpoly : reflect Config.crcPoly = 0x8408 := by decide
  have hzero : reflect (0 : Half) = 0 := by decide
  rw [reflectedShift, hlow, crcShift_eq, reflect_xor, reflect_shiftLeft, apply_ite reflect, hpoly, hzero]

theorem reflectedShifts_reflect (k : Nat) (c : Half) : reflectedShifts k (reflect c) = reflect (crcShifts k c) := by
  induction k generalizing c with
  | zero => rfl
  | succ k ih => rw [reflectedShifts, reflectedShift_reflect, ih, crcShifts]

theorem reflectedUpdate_reflect {cfg : CrcCfg} (h : cfg.refin = true) (c : Half) (b : Byte) :
    reflectedUpdate (reflect c) b = reflect (crcUpdate cfg c b) := by
  rw [crcUpdate_of_refin h, ← reflectedShifts_reflect, reflect_xor, reflect_byte_shiftLeft, reflect_reflect]
  rfl

/-- Settles O28: the reflected form keeps the reflected state, and refout reflects it back at the end. -/
theorem defaultCrc16EqualsReflectedForm : Obligations.DefaultCrc16EqualsReflectedForm := by
  refine ⟨fun bytes => ?_, by decide +kernel⟩
  have hinit : (0xFFFF : Half) = reflect CrcCfg.x25.init := by decide
  rw [crc16Reflected, hinit, List.foldl_hom (g₁ := crcUpdate CrcCfg.x25) reflect (reflectedUpdate_reflect rfl), ← hinit]
  rfl

/-! ## CRCINIT, CRCI and CRCR (rules R184 to R186) -/

/-- Settles O22: the word is the one that encodes CRCINIT, since decoding and encoding are inverse. -/
theorem crcinitLoadsTheInitialValue : Obligations.CrcinitLoadsTheInitialValue := fun s =>
  ⟨fun w => ⟨fun h => (legalWordIsEncodingOfItsCommand w _ h).2.symm,
      fun h => h ▸ decodeOfEncodeGivesTheCommand .crcinit rfl⟩,
    _, rfl, rfl, onlyCrc_setCrc s _⟩

/-- Settles O23: CRCR feeds the low byte of its register, which is what CRCI of that byte feeds. -/
theorem crciAndCrcrFeedOneByte : Obligations.CrciAndCrcrFeedOneByte := by
  refine fun s => ⟨Opcode.mustBeZero_of_mask (op := .crci) rfl rfl, fun b => ⟨?_, _, rfl, rfl, onlyCrc_setCrc s _⟩,
    fun rs1 => ⟨?_, _, rfl, onlyCrc_setCrc s _, ?_, ?_⟩⟩
  · rw [encode, formatI_imm_toNat, BitVec.toNat_setWidth_of_le (by norm_num)]
    rfl
  · simp [encode, formatR_toNat, Opcode.code]
  · rw [State.setCrc_crc, lowByte_eq]
  · rw [← lowByte_eq]
    rfl

/-! ## CRCM (rule R187) -/

theorem exec_crcm_of_le {rs1 : RegName} {count : Half} {s : State}
    (h : (s.readReg rs1).toNat + count.toNat ≤ s.flen.toNat) :
    exec (.crcm rs1 count) s = .next
      (s.setCrc (crcFeed s.crcCfg s.crc (s.fbufBytes (s.readReg rs1).toNat count.toNat))) :=
  withinFrame_fits h _

/-- Settles O24: CRCM is the range check before the fold over the bytes at the addresses of the range. -/
theorem crcmFeedsTheRangeOrRaisesBounds : Obligations.CrcmFeedsTheRangeOrRaisesBounds := by
  refine fun rs1 count s => ⟨?_, fun h => ⟨_, exec_crcm_of_le h, onlyCrc_setCrc s _, ?_⟩, raisesBounds_of_past rfl⟩
  · simp [encode, formatI_toNat, Opcode.code]
  · rw [State.setCrc_crc, crcFeed, State.fbufBytes_eq_map]

/-! ## CRCRD (rules R181, R188) -/

/-- CrcFinal bit by bit. -/
theorem crcFinal_getLsbD (cfg : CrcCfg) (c : Half) {j : Nat} (hj : j < 16) :
    (crcFinal cfg c).getLsbD j =
      ((if cfg.refout then c.getLsbD (15 - j) else c.getLsbD j) ^^ cfg.xorout.getLsbD j) := by
  rw [crcFinal, BitVec.getLsbD_xor, apply_ite (BitVec.getLsbD · j), reflect_getLsbD, decide_eq_true hj, Bool.true_and]

/-- Settles O25: F[RD] is the final value, zero-extended. -/
theorem crcrdReadsTheFinalValue : Obligations.CrcrdReadsTheFinalValue := by
  refine fun rd s => ⟨formatR_rd_toNat .crcrd rd, _, rfl, onlyFieldReg_writeReg s rd _, fun j hj => ?_, fun j hj => ?_⟩
  · rw [State.readReg_writeReg_same, ← crcFinal_getLsbD _ _ hj, BitVec.getLsbD_setWidth, decide_eq_true (by omega),
      Bool.true_and]
  · rw [State.readReg_writeReg_same, BitVec.getLsbD_setWidth, BitVec.getLsbD_of_ge _ _ hj, Bool.and_false]

/-! ## The accumulator (rule R182) -/

theorem Feed.bytes_setCrc (s : State) (c : Half) : Feed.bytes (s.setCrc c) = Feed.bytes s := by
  funext x
  cases x with
  | crci | crcr => rfl
  | crcm r n => exact State.fbufBytes_congr fun _ _ _ => rfl

theorem Feed.inFrame_setCrc {x : Feed} {s : State} (c : Half) : x.inFrame (s.setCrc c) ↔ x.inFrame s := by
  cases x <;> rfl

theorem crcFeed_append (cfg : CrcCfg) (c : Half) (bytes more : List Byte) :
    crcFeed cfg c (bytes ++ more) = crcFeed cfg (crcFeed cfg c bytes) more :=
  List.foldl_append

/-- Every feed inside the frame adds its bytes to CRC. -/
theorem exec_feed {x : Feed} {s : State} (h : x.inFrame s) :
    exec x.instr s = .next (s.setCrc (crcFeed s.crcCfg s.crc (x.bytes s))) := by
  cases x with
  | crci | crcr => rfl
  | crcm r n => exact exec_crcm_of_le h

/-- A sequence of feeds adds the bytes of all of them, first to last, whatever comes after it. -/
theorem execAll_feeds {s : State} {feeds : List Feed} (h : ∀ x ∈ feeds, x.inFrame s) (c : Half) (is : List Instr) :
    execAll (feeds.map Feed.instr ++ is) (s.setCrc c)
      = execAll is (s.setCrc (crcFeed s.crcCfg c (feeds.flatMap (Feed.bytes s)))) := by
  induction feeds generalizing c with
  | nil => rfl
  | cons x feeds ih =>
    obtain ⟨hx, hfeeds⟩ := List.forall_mem_cons.1 h
    have hexec := exec_feed ((Feed.inFrame_setCrc c).2 hx)
    rw [Feed.bytes_setCrc] at hexec
    calc execAll (x.instr :: (feeds.map Feed.instr ++ is)) (s.setCrc c)
        = execAll (feeds.map Feed.instr ++ is) (s.setCrc (crcFeed s.crcCfg c (x.bytes s))) := execAll_cons hexec _
      _ = execAll is (s.setCrc (crcFeed s.crcCfg (crcFeed s.crcCfg c (x.bytes s)) (feeds.flatMap (Feed.bytes s)))) :=
        ih hfeeds _
      _ = execAll is (s.setCrc (crcFeed s.crcCfg c ((x :: feeds).flatMap (Feed.bytes s)))) := by
        rw [List.flatMap_cons, crcFeed_append]

/-- Settles O27: CRCINIT loads init, the feeds fold their bytes into it, and CRCRD reads CrcFinal of that. -/
theorem accumulatorComputesCrc16OfTheBytesFed : Obligations.AccumulatorComputesCrc16OfTheBytesFed := by
  intro feeds rd s h
  refine ⟨_, (execAll_cons (i := .crcinit) rfl _).trans (execAll_feeds h s.crcCfg.init [.crcrd rd]), ?_⟩
  rw [State.readReg_writeReg_same]
  exact BitVec.toNat_setWidth_of_le (by norm_num)

/-! ## The acknowledgment (rule R190) -/

/-- The ten bytes that can be read are ABUF. -/
theorem State.map_abufByte_range (s : State) : (List.range 10).map s.abufByte = s.abuf.toList := by
  refine List.ext_getElem (by simp) fun k hk hk' => ?_
  have hk10 : k < 10 := by simpa using hk
  simp [State.abufByte, hk10]

/-- Settles O26: the type and the index bytes are parts of the two registers, and the CRC bytes the halves of Crc16. -/
theorem ackBuildsTheAcknowledgment : Obligations.AckBuildsTheAcknowledgment := by
  intro rs1 rs2 s ty hi lo hty hhi hlo
  have ety : ty = lowByte (s.readReg rs1) := BitVec.eq_of_toNat_eq (by simp [hty, lowByte_eq])
  have ehi : hi = highByteOf (lowHalf (s.readReg rs2)) :=
    BitVec.eq_of_toNat_eq (by rw [highByteOf_toNat, hhi, lowHalf_eq, BitVec.toNat_ofNat]; omega)
  have elo : lo = lowByteOf (lowHalf (s.readReg rs2)) :=
    BitVec.eq_of_toNat_eq (by rw [lowByteOf_toNat, hlo, lowHalf_eq, BitVec.toNat_ofNat]; omega)
  subst ety ehi elo
  refine ⟨?_, Opcode.mustBeZero_of_mask (op := .ack) rfl rfl, _, _, _, rfl, State.map_abufByte_range _,
    highByte_lowByte _, rfl, rfl, ?_⟩
  · simp [encode, formatR_toNat, Opcode.code]
  · simp [SameFieldRegs, SameOutsideCommands, SameFbuf, SameHostSide]

end Sys2Proof.Machine
end

section
/-! PROOFS. The statements of 60_exceptions.md: every command answers (rule R210), and what a pending fault keeps (rules
R214, R215). -/

namespace Sys2Proof.Machine

/-! ## Every command answers (rule R210) -/

/-- SKIPR records NEGSKIP, or goes on as SKIP does, to the range check. -/
theorem exec_skipr_next (r : RegName) (imm : Half) (s : State) : ∃ t, exec (.skipr r imm) s = .next t := by
  rcases lt_or_ge (s.readReg r).toNat imm.toNat with hneg | hpos
  · exact ⟨_, exec_skipr_of_lt hneg⟩
  · rw [exec_skipr_of_le hpos]
    exact withinFrame_next _ _ _ _

/-- Settles O30, command by command: those that move or read past a range check answer as it does, SKIPR by its own
lemma, and the others cannot fault. -/
theorem everyCommandAnswersNext : Obligations.EveryCommandAnswersNext := by
  intro i s
  cases i with
  | seek | skip | rdu8 | rdu16 | rdu32 | xtime | ximei | crcm => exact withinFrame_next _ _ _ _
  | skipr r imm => exact exec_skipr_next r imm s
  | tail | avail | movi | xbf | xsgn | xcell | crcinit | crci | crcr | crcrd | ack => exact ⟨_, rfl⟩

/-! ## While a fault is pending (rules R214, R215) -/

theorem Completes.sameRecord {s t : State} (h : Completes s t) : SameRecord s t := by
  rw [h]
  exact SameRecord.refl s

/-- A second fault leaves the first record. -/
theorem State.recordFault_sameRecord {s : State} (hf : s.status.fault = true) (c : Cause) (cmd info : Word) :
    SameRecord s (s.recordFault c cmd info) := by
  rw [State.recordFault_pending hf]
  exact SameRecord.refl s

theorem exec_sameRecord {i : Instr} {s t : State} (hf : s.status.fault = true) (h : exec i s = .next t) :
    SameRecord s t := by
  rcases exec_cases h with hc | ⟨info, rfl⟩ | ⟨-, info, rfl⟩
  · exact hc.sameRecord
  · exact State.recordFault_sameRecord hf _ _ _
  · exact State.recordFault_sameRecord hf _ _ _

/-- Settles O32: a command that completes writes no part of the record, and one that faults finds it taken. -/
theorem noCommandTouchesAPendingRecord : Obligations.NoCommandTouchesAPendingRecord := by
  intro i s t h hf
  obtain ⟨hfault, hcause, hcmd, hinfo⟩ := exec_sameRecord hf h
  exact ⟨hfault.trans hf, hcause, hcmd, hinfo⟩

/-- Settles O35: the step is the host write, the host write is the CMD write, and that does nothing under a pending
fault. -/
theorem pendingFaultDiscardsCommands : Obligations.PendingFaultDiscardsCommands := by
  intro s a w rest hq ha hr hf
  rw [step_write hq hr, hostWrite_cmd ha]
  exact commandWrite_pending hf

end Sys2Proof.Machine
end

section
/-! PROOFS. The statements of 70_reset_and_hazards.md: when a step stops (rule R240), the order of an FBUF and a FLEN write
(rule R245) and loading a frame (rule R244). -/

namespace Sys2Proof.Machine

/-! ## When a step stops (rule R240) -/

theorem commandWrite_next (w : Word) (s : State) : ∃ t, commandWrite w s = .next t := by
  unfold commandWrite
  split
  · exact ⟨s, rfl⟩
  · split
    · exact ⟨_, rfl⟩
    · exact everyCommandAnswersNext _ s

/-- Every host write answers: a write of CMD because every command does, the others at once. -/
theorem hostWrite_next (a : HostAddr) (w : Word) (s : State) : ∃ t, hostWrite a w s = .next t := by
  unfold hostWrite
  cases hostReg a with
  | cmd => exact commandWrite_next w s
  | ctrl | status | flen | cur | crc | faultCmd | faultInfo | id | fieldLow | fieldHigh | abufWord | fbufWord | reserved =>
    exact ⟨_, rfl⟩

/-- An access while reset is asserted stops. -/
theorem busEvent_access_inReset {e : BusEvent} {s : State} (he : e.isAccess = true) (hr : s.inReset = true) :
    busEvent e s = .fault .accessInReset := by
  cases e with
  | write | read => exact if_pos hr
  | resetAssert | resetRelease => cases he

/-- Every other event answers. -/
theorem busEvent_next {e : BusEvent} {s : State} (h : s.inReset = false ∨ e.isAccess = false) :
    ∃ t, busEvent e s = .next t := by
  cases e with
  | write a w => simpa [busEvent, h.resolve_right nofun] using hostWrite_next a w s
  | read a => simp [busEvent, h.resolve_right nofun]
  | resetAssert | resetRelease => exact ⟨_, rfl⟩

/-- Settles O39: with no event a step keeps the state; otherwise it is the event's, which stops exactly for an access in
reset. -/
theorem stepStopsExactlyOnAnAccessInReset : Obligations.StepStopsExactlyOnAnAccessInReset := by
  intro s
  cases hq : s.busQueue with
  | nil => exact .inr ⟨⟨s, step_nil hq⟩, .inr (by simp)⟩
  | cons e rest =>
    rw [step_cons hq]
    by_cases h : s.inReset = true ∧ e.isAccess = true
    · obtain ⟨hr, he⟩ := h
      exact .inl ⟨busEvent_access_inReset he hr, hr, e, rest, rfl, he⟩
    · have hok : s.inReset = false ∨ e.isAccess = false := by simpa [or_iff_not_imp_left] using h
      exact .inr ⟨busEvent_next hok, by simpa using hok⟩

/-! ## The order of an FBUF and a FLEN write (rule R245) -/

@[simp] theorem State.writeFbufWord_status (s : State) (k : Nat) (w : Word) :
    (s.writeFbufWord k w).status = s.status := rfl

theorem State.recordFault_writeFbufWord (s : State) (k : Nat) (w : Word) (c : Cause) (cmd info : Word) :
    (s.writeFbufWord k w).recordFault c cmd info = (s.recordFault c cmd info).writeFbufWord k w := by
  unfold State.recordFault
  rw [State.writeFbufWord_status]
  split <;> rfl

/-- A FLEN write, stored or recorded as HOSTRANGE, does not meet a window write. -/
theorem State.writeFlen_writeFbufWord (s : State) (k : Nat) (v w : Word) :
    (s.writeFbufWord k w).writeFlen v = (s.writeFlen v).writeFbufWord k w := by
  rcases le_or_gt v.toNat 512 with hfit | hpast
  · rw [State.writeFlen_fits hfit, State.writeFlen_fits hfit]
    rfl
  · rw [State.writeFlen_past hpast, State.writeFlen_past hpast, State.recordFault_writeFbufWord]

/-- Settles O55: both orders complete, and the two writes commute. -/
theorem fbufAndFlenWritesCommute : Obligations.FbufAndFlenWritesCommute := by
  intro a b v w s ha hlo hhi
  obtain ⟨k, hb⟩ := Nat.exists_eq_add_of_le hlo
  have hwindow := hostWrite_fbufWord (show k < 128 by omega) hb w
  refine ⟨_, _, _, hostWrite_flen ha v s, hwindow _, hwindow s, ?_⟩
  rw [hostWrite_flen ha, State.writeFlen_writeFbufWord]

/-! ## Consecutive window writes (rule R244) -/

section

variable (s : State) (k : Nat) (w : Word)

@[simp] theorem State.writeFbufWord_inReset : (s.writeFbufWord k w).inReset = s.inReset := rfl

@[simp] theorem State.writeFbufWord_epoch : (s.writeFbufWord k w).epoch = s.epoch := rfl

@[simp] theorem State.writeFbufWord_busQueue : (s.writeFbufWord k w).busQueue = s.busQueue := rfl

@[simp] theorem State.withQueue_writeFbufWord (q : List BusEvent) :
    (s.writeFbufWord k w).withQueue q = (s.withQueue q).writeFbufWord k w := rfl

/-- Other FBUF contents take the place of those that a write leaves. -/
@[simp] theorem State.withFbuf_writeFbufWord (m : Memory) (e : Nat) :
    (s.writeFbufWord k w).withFbuf m e = s.withFbuf m e := by
  have hbyte (t : State) (a : Nat) (v : Byte) : (t.writeFbufByte a v).withFbuf m e = t.withFbuf m e := rfl
  simp only [State.writeFbufWord, hbyte]

end

/-- Words stored into the FBUF window, from word k on. -/
def State.writeFbufWords (s : State) : Nat → List Word → State
  | _, [] => s
  | k, w :: ws => (s.writeFbufWord k w).writeFbufWords (k + 1) ws

section

variable (s : State) (k : Nat) (ws : List Word)

/-- They change FBUF alone. -/
theorem State.writeFbufWords_eq_withFbuf : ∃ m, s.writeFbufWords k ws = s.withFbuf m s.epoch := by
  induction ws generalizing s k with
  | nil => exact ⟨s.fbuf, rfl⟩
  | cons w ws ih =>
    obtain ⟨m, hm⟩ := ih (s.writeFbufWord k w) (k + 1)
    exact ⟨m, by rw [State.writeFbufWords, hm, State.withFbuf_writeFbufWord, State.writeFbufWord_epoch]⟩

@[simp] theorem State.writeFbufWords_inReset : (s.writeFbufWords k ws).inReset = s.inReset := by
  obtain ⟨m, hm⟩ := s.writeFbufWords_eq_withFbuf k ws
  rw [hm, State.withFbuf]

@[simp] theorem State.writeFbufWords_busQueue : (s.writeFbufWords k ws).busQueue = s.busQueue := by
  obtain ⟨m, hm⟩ := s.writeFbufWords_eq_withFbuf k ws
  rw [hm, State.withFbuf]

@[simp] theorem State.withQueue_writeFbufWords (q : List BusEvent) :
    (s.writeFbufWords k ws).withQueue q = (s.withQueue q).writeFbufWords k ws := by
  induction ws generalizing s k with
  | nil => rfl
  | cons w ws ih => rw [State.writeFbufWords, ih, State.withQueue_writeFbufWord, State.writeFbufWords]

end

/-- The bytes before and after the words stay. -/
theorem State.fbufByte_writeFbufWords_other (s : State) {k b : Nat} {ws : List Word}
    (hb : b < 4 * k ∨ 4 * (k + ws.length) ≤ b) : (s.writeFbufWords k ws).fbufByte b = s.fbufByte b := by
  induction ws generalizing s k with
  | nil => rfl
  | cons w ws ih =>
    rw [List.length_cons] at hb
    rw [State.writeFbufWords, ih _ (by omega), State.fbufByte_writeFbufWord_other _ _ (by omega)]

/-! ### The bytes of a frame -/

theorem State.HasBytes.congr {s t : State} {a : Nat} {bytes : List Byte} (h : s.HasBytes a bytes)
    (hst : ∀ b, a ≤ b → b < a + bytes.length → t.fbufByte b = s.fbufByte b) : t.HasBytes a bytes :=
  (State.fbufBytes_congr hst).trans h

theorem State.HasBytes.left {s : State} {a : Nat} {l m : List Byte} (h : s.HasBytes a (l ++ m)) : s.HasBytes a l :=
  ((s.hasBytes_append a l m).1 h).1

theorem State.hasBytes_writeFbufWord (s : State) (k : Nat) (a b c d : Byte) :
    (s.writeFbufWord k (lanes a b c d)).HasBytes (4 * k) [a, b, c, d] := by
  obtain ⟨ha, hb, hc, hd⟩ := laneByte_lanes a b c d
  simp [State.fbufByte_writeFbufWord, ha, hb, hc, hd]

/-- The words of a byte sequence put its bytes into FBUF, whatever stands in the lanes past its end (20_memory.md
rule R66). -/
theorem State.hasBytes_writeFbufWords (s : State) (pad : Byte) (k : Nat) :
    ∀ bytes, (s.writeFbufWords k (busWords pad bytes)).HasBytes (4 * k) bytes
  | [] => rfl
  | [a] => (s.hasBytes_writeFbufWord k a pad pad pad).left (l := [a])
  | [a, b] => (s.hasBytes_writeFbufWord k a b pad pad).left (l := [a, b])
  | [a, b, c] => (s.hasBytes_writeFbufWord k a b c pad).left (l := [a, b, c])
  | a :: b :: c :: d :: bytes => by
    have hword := (s.hasBytes_writeFbufWord k a b c d).congr fun i _ hi =>
      State.fbufByte_writeFbufWords_other (k := k + 1) (ws := busWords pad bytes) _ (.inl hi)
    have hrest := (s.writeFbufWord k (lanes a b c d)).hasBytes_writeFbufWords pad (k + 1) bytes
    exact (State.hasBytes_append _ _ [a, b, c, d] bytes).2 ⟨hword, hrest⟩

theorem State.HasBytes.holdsBytes {s : State} {bytes : List Byte} (h : s.HasBytes 0 bytes)
    (hflen : s.flen.toNat = bytes.length) : HoldsBytes s bytes := by
  refine ⟨hflen, fun k b hb => ?_⟩
  obtain ⟨hk, rfl⟩ := List.getElem?_eq_some_iff.1 hb
  simpa using h.fbufByte_eq hk

/-! ### Running the events -/

section

variable {s : State} {k : Nat} {w : Word} {ws : List Word} {rest : List BusEvent}

theorem step_fbufWrite (hk : k < 128) (hr : s.inReset = false)
    (hq : s.busQueue = .write (BitVec.ofNat 12 (0x400 + 4 * k)) w :: rest) :
    step s = .next ((s.withQueue rest).writeFbufWord k w) :=
  (step_write hq hr).trans (hostWrite_fbufWord hk (standsAt_of_hostReg (hostReg_window hk)).2 w _)

theorem step_flenWrite (hr : s.inReset = false) (hq : s.busQueue = .write 0x00C w :: rest) :
    step s = .next ((s.withQueue rest).writeFlen w) :=
  (step_write hq hr).trans (hostWrite_flen rfl w _)

/-- The steps of consecutive window writes store their words and take their events; others may follow. -/
theorem runSteps_fbufWrites (n : Nat) (hk : k + ws.length ≤ 128) (hr : s.inReset = false)
    (hq : s.busQueue = fbufWrites k ws ++ rest) :
    runSteps (ws.length + n) s = runSteps n ((s.withQueue rest).writeFbufWords k ws) := by
  induction ws generalizing s k with
  | nil =>
    subst hq
    rw [List.length_nil, Nat.zero_add]
    rfl
  | cons w ws ih =>
    rw [List.length_cons] at hk
    have hstep := step_fbufWrite (rest := fbufWrites (k + 1) ws ++ rest) (by omega) hr hq
    rw [List.length_cons, Nat.add_right_comm, runSteps_succ _ hstep,
      ih (k := k + 1) (by omega) (by simpa using hr) (by simp), State.withQueue_writeFbufWord, State.writeFbufWords]
    rfl

/-- The steps of a frame's load store its words, then its length into FLEN. -/
theorem runSteps_loadFrame {pad : Byte} {bytes : List Byte} (hlen : bytes.length ≤ 512) (hr : s.inReset = false)
    (hq : s.busQueue = loadFrame pad bytes ++ rest) :
    runSteps (loadFrame pad bytes).length s
      = .next (((s.withQueue rest).writeFbufWords 0 (busWords pad bytes)).writeFlen (BitVec.ofNat 32 bytes.length)) := by
  have hwords := busWords_length pad bytes
  rw [loadFrame, List.append_assoc] at hq
  rw [loadFrame, List.length_append, fbufWrites_length, runSteps_fbufWrites _ (by omega) hr hq]
  refine (runSteps_succ 0 (step_flenWrite (w := BitVec.ofNat 32 bytes.length) (rest := rest) ?_ ?_)).trans ?_
  · simpa using hr
  · simp
  · rw [State.withQueue_writeFbufWords]
    rfl

end

/-- Settles O56: the words put the bytes into FBUF and change nothing else; the FLEN write, in range, then changes FLEN and
CUR alone. -/
theorem loadingAFramePutsItInFbuf : Obligations.LoadingAFramePutsItInFbuf := by
  intro bytes pad rest s hlen hr hq
  have hword : (BitVec.ofNat 32 bytes.length).toNat = bytes.length := by
    rw [BitVec.toNat_ofNat, Nat.mod_eq_of_lt (by omega)]
  have hrun := runSteps_loadFrame hlen hr hq
  have hbytes := (s.withQueue rest).hasBytes_writeFbufWords pad 0 bytes
  have hother (b : Nat) (hb : bytes.length + 3 ≤ b) :
      ((s.withQueue rest).writeFbufWords 0 (busWords pad bytes)).fbufByte b = s.fbufByte b :=
    State.fbufByte_writeFbufWords_other _ (.inr (by rw [busWords_length]; omega))
  obtain ⟨m, hm⟩ := (s.withQueue rest).writeFbufWords_eq_withFbuf 0 (busWords pad bytes)
  rw [hm] at hrun hbytes hother
  rw [State.writeFlen_fits (hword.trans_le hlen)] at hrun
  have hflen : ((BitVec.ofNat 32 bytes.length).setWidth 10).toNat = bytes.length := by
    rw [BitVec.toNat_setWidth, hword, Nat.mod_eq_of_lt (by omega)]
  exact ⟨_, hrun, State.HasBytes.holdsBytes (hbytes.congr fun _ _ _ => rfl) hflen, rfl, rfl, fun _ => rfl, rfl, rfl,
    rfl, rfl, rfl, rfl, fun _ => rfl, hr, rfl, rfl, hother⟩

end Sys2Proof.Machine
end
